-- ==== Sys2Proof/Word.lean ====
section
/-! DEFINITION. The word and byte types of the umix CORE (spec/00_scope.md R6, R7, R8): registers, page
words, identifiers and offsets are unsigned 32-bit words, the channels carry bytes. -/

namespace Sys2Proof

/-- A register value, a page word, a page identifier or a word offset: unsigned, 32 bits (R8). -/
abbrev Word := BitVec 32

/-- One byte of the image file or of the byte channels (R53). -/
abbrev Byte := BitVec 8

end Sys2Proof
end

