-- ==== Sys2Proof/Config.lean ====
section
/-! DEFINITION. The parameters of the block (spec/00_scope.md R6). The two parameters the spec leaves to
the model's user, `HostCanAllocate` and the input stream, differ from run to run, so fields of `State` choose
them (log entries 4 and 5); `Config.hostCanAllocate` stands after `State`, which it is a predicate of. `NREG` = 8 and `XLEN` = 32 are the types' own numbers
(`Reg`, `Word`). -/

namespace Sys2Proof.Config

/-- `MAX_IMAGE_WORDS`: the longest image the host loads, in words (R6, R241, D12). -/
def maxImageWords : Nat := 2 ^ 32 - 1

/-- `FRESH_ID_START`: the first identifier handed out when none was freed (R6, R27, D7). -/
def freshIdStart : Nat := 1

/-- The fresh-identifier counter's last value: no 32-bit identifier is left there (R28, R151). -/
def idLimit : Nat := 2 ^ 32

/-- What a word of a present page reads as when nothing was written to it since the page was created:
pages are created zero-filled (R60, R150). -/
def unlistedWord : Word := 0#32

/-- What opcode 11 writes on end-of-stream (R191). -/
def eofSentinel : Word := 0xFFFFFFFF#32

end Sys2Proof.Config
end

