-- ==== Sys2Proof/Syntax.lean ====
section
/-! DEFINITION. The instructions of the umix CORE: one constructor per row of spec/opcode_table.json, with
the fields that row uses (spec/30_encoding.md R84, R88). The bits an instruction ignores (R85) are no
part of it, so two words that differ only there are the same instruction. -/

namespace Sys2Proof

/-- A register index, `r0` to `r7` (R20, R84). -/
abbrev Reg := Fin 8

/-- The instruction set: opcodes 0 to 15 in the order of R88. The immediate of `li` is held as the word
it is assembled to, `zext_32(imm)` (R83); `WellFormed` says that it fits 25 bits (log entry 14). -/
inductive Instr where
  /-- opcode 0, `cmov rA, rB, rC` -/
  | cmov (a b c : Reg)
  /-- opcode 1, `ld rA, rB, rC` -/
  | ld (a b c : Reg)
  /-- opcode 2, `st rA, rB, rC` -/
  | st (a b c : Reg)
  /-- opcode 3, `add rA, rB, rC` -/
  | add (a b c : Reg)
  /-- opcode 4, `mul rA, rB, rC` -/
  | mul (a b c : Reg)
  /-- opcode 5, `div rA, rB, rC` -/
  | div (a b c : Reg)
  /-- opcode 6, `nand rA, rB, rC` -/
  | nand (a b c : Reg)
  /-- opcode 7, `halt` -/
  | halt
  /-- opcode 8, `alloc rB, rC` -/
  | alloc (b c : Reg)
  /-- opcode 9, `free rC` -/
  | free (c : Reg)
  /-- opcode 10, `out rC` -/
  | out (c : Reg)
  /-- opcode 11, `in rC` (`in` is a word of Lean's own) -/
  | inp (c : Reg)
  /-- opcode 12, `loadprog rB, rC` -/
  | loadprog (b c : Reg)
  /-- opcode 13, `li rAi, imm` -/
  | li (ai : Reg) (imm : Word)
  /-- opcode 14, a defined no-op -/
  | unk14
  /-- opcode 15, a defined no-op -/
  | unk15
  deriving DecidableEq, Repr

end Sys2Proof
end

