-- ==== Sys2Proof/Machine/State.lean ====
section
/-! DEFINITION. The state of the CORE (spec/10_state.md, the tuple S and R20 to R35), the reasons a step
can stop, and the state right after reset. All of it is plain data. -/

namespace Sys2Proof.Machine

/-- A page (R26): a fixed length in words, 0 to 2^32 − 1 (R50), and its words. `cells` lists, by rising
offset, the words that differ from `Config.unlistedWord`; a word below the length that is not listed
reads as that. Log entry 1 says why a cell is a word and not a byte. -/
structure Page where
  size : Word
  cells : List (Nat × Word)
  deriving DecidableEq, Repr

/-- The page table (R26): the present pages by rising identifier; an identifier not listed is absent.
Page 0 is the program image. -/
abbrev PageTable := List (Nat × Page)

/-- What a fault reports: its kind and the offending value (R210, R211). -/
inductive Cause where
  /-- code 0: no fault -/
  | noFault
  /-- code 1: the identifier and the offset; for a fetch, identifier 0 and the pc -/
  | memory (id k : Word)
  /-- code 2: the identifier -/
  | invalidPage (id : Word)
  /-- code 3: the dividend, the recorded value of R113, R210 and program P8, and beside it the divisor, which
  R30 names (log entry 17) -/
  | arithmetic (dividend divisor : Word)
  /-- code 4: the requested size -/
  | outOfMemory (size : Word)
  /-- code 5: the value that is no byte -/
  | outputRange (v : Word)
  deriving DecidableEq, Repr

/-- The fault record (R30): the cause, and the pc of the word whose fetch or execution faulted. -/
structure FaultRecord where
  cause : Cause
  fpc : Word
  deriving DecidableEq, Repr

/-- The run status (R29). While the block waits for input the status holds the register the waiting
opcode 11 will write (R192; log entry 7). -/
inductive Status where
  | running
  | waitInput (dest : Reg)
  | halted
  | faulted
  | aborted
  deriving DecidableEq, Repr

/-- The host's answer to an input request (R222). -/
inductive InResp where
  | byte (b : Byte)
  | eof
  deriving DecidableEq, Repr

/-- The host's predicate `HostCanAllocate` (R6, D6 "OPEN") as plain data: which predicate of a state and a size
the run is taken under. `Sys2Proof.Machine.hostCanAllocate` says what each answers (log entry 4). -/
inductive HostGrants where
  /-- every allocation can be satisfied -/
  | always
  /-- D6's example: sizes below `sizes` while fewer than `pages` pages exist, page 0 counted -/
  | within (sizes pages : Nat)
  /-- a predicate of which nothing is known: number `host` of `Config.hostCanAllocate` -/
  | anyHost (host : Nat)
  deriving DecidableEq, Repr

/-- The whole state of the block. The last three fields are the model's own: they hold what the spec
makes an argument of the model or an act of the host (log entries 4, 5, 6). -/
structure State where
  /-- `x[0]` to `x[7]` (R20) -/
  regs : Vector Word 8
  /-- the program counter, a word index into page 0 (R23) -/
  pc : Word
  /-- the page table; page 0 is the image (R26) -/
  pages : PageTable
  /-- freed identifiers, the most recent first (R27) -/
  freeList : List Word
  /-- the fresh-identifier counter, 1 to 2^32 (R27) -/
  nextId : Nat
  /-- the image-version counter (R32) -/
  imageVer : Nat
  /-- the run status (R29) -/
  status : Status
  /-- the fault record, meaningful only when the status is FAULTED (R30) -/
  fault : FaultRecord
  /-- the bytes emitted so far, in order (R33) -/
  out : List Byte
  /-- whether end-of-stream has been seen (R33) -/
  inEOF : Bool
  /-- the host's answers to the next input requests, in order (R222, D5) -/
  hostInput : List InResp
  /-- the predicate `HostCanAllocate` (R6, D6); no step changes it -/
  hostGrants : HostGrants
  /-- whether the host has asked for an abort the block has not taken yet (R218) -/
  abortReq : Bool
  deriving DecidableEq, Repr

/-- Why the machine stops: the run is over and no step is defined (R176). Raised by `step` alone, in the
three final states; no instruction raises one. Safe: the spec defines no step there. The spec's own
faults are not these: they are next states with status FAULTED (R212, log entry 10). -/
inductive Fault where
  /-- `step` in status HALTED. Safe (R176). -/
  | runHalted
  /-- `step` in status FAULTED. Safe (R176). -/
  | runFaulted
  /-- `step` in status ABORTED. Safe (R176). -/
  | runAborted
  deriving DecidableEq, Repr

/-- Why an instruction has no meaning in the model. -/
inductive Refusal where
  /-- Answered by an arm of `exec` for an instruction without a meaning; no arm answers it now. Safe. -/
  | notModelled (mnemonic : String)
  deriving DecidableEq, Repr

/-- The state right after reset (R35, R240), with the image of no words: the program is loaded from
outside (`State.load`, log entry 2). The fault record is unspecified by the spec (log entry 3), and the
host's side is a host that never denies an allocation, has given no answer and asks for no abort (log
entries 4, 5, 6). -/
def State.reset : State where
  regs := Vector.replicate 8 0#32
  pc := 0#32
  pages := [(0, { size := 0#32, cells := [] })]
  freeList := []
  nextId := Config.freshIdStart
  imageVer := 0
  status := .running
  fault := { cause := .noFault, fpc := 0#32 }
  out := []
  inEOF := false
  hostInput := []
  hostGrants := .always
  abortReq := false

end Sys2Proof.Machine

/-- `HostCanAllocate` where nothing is known of the host (R6, R150, D6 "OPEN"): any predicate of a state and a size,
one for each number. It has no body, so no proof can use a value of it (log entry 4). -/
opaque Sys2Proof.Config.hostCanAllocate : Nat → Sys2Proof.Machine.State → Sys2Proof.Word → Bool
end

