-- ==== Sys2Proof/Machine/Memory.lean ====
section
/-! DEFINITION. Page memory as plain data: sparse lists by rising key, pages, the page table, and the
canonical form every operation keeps (spec/20_memory.md R50 to R61). -/

namespace Sys2Proof.Machine

/-- The value a sparse list gives for a key. -/
def sparseGet {α : Type} (k : Nat) : List (Nat × α) → Option α
  | [] => none
  | (j, v) :: rest => if k = j then some v else sparseGet k rest

/-- A sparse list with the value of one key set, its keys still rising. -/
def sparseSet {α : Type} (k : Nat) (v : α) : List (Nat × α) → List (Nat × α)
  | [] => [(k, v)]
  | (j, u) :: rest =>
    if k < j then (k, v) :: (j, u) :: rest
    else if k = j then (k, v) :: rest
    else (j, u) :: sparseSet k v rest

/-- A sparse list without one key. -/
def sparseDrop {α : Type} (k : Nat) (l : List (Nat × α)) : List (Nat × α) := l.filter fun e => e.1 != k

/-- The keys of a sparse list rise strictly. -/
abbrev Rising {α : Type} (l : List (Nat × α)) : Prop := l.Pairwise fun x y => x.1 < y.1

/-- A new page: `size` words, all of them zero (R60, R150). -/
def Page.zeroed (size : Word) : Page := { size := size, cells := [] }

/-- Word k of a page; none at or beyond its length (R57). -/
def Page.read (p : Page) (k : Word) : Option Word :=
  if k < p.size then some ((sparseGet k.toNat p.cells).getD Config.unlistedWord) else none

/-- A page with word k set to v, its length unchanged; none at or beyond its length (R58). Writing what
an unlisted word reads as takes the entry out, so that equal pages are equal data. -/
def Page.write (p : Page) (k v : Word) : Option Page :=
  if k < p.size then
    some { p with cells := if v = Config.unlistedWord then sparseDrop k.toNat p.cells else sparseSet k.toNat v p.cells }
  else none

/-- The cells of a word sequence whose first word has offset `at0`. -/
def cellsFrom (at0 : Nat) : List Word → List (Nat × Word)
  | [] => []
  | w :: rest => if w = Config.unlistedWord then cellsFrom (at0 + 1) rest else (at0, w) :: cellsFrom (at0 + 1) rest

/-- The page that holds a word sequence (of at most 2^32 − 1 words). -/
def Page.ofWords (ws : List Word) : Page := { size := BitVec.ofNat 32 ws.length, cells := cellsFrom 0 ws }

/-- A page in canonical form: rising offsets below the length, and no entry equal to what an unlisted
word reads as. -/
abbrev Page.wf (p : Page) : Prop :=
  Rising p.cells ∧ ∀ c ∈ p.cells, c.1 < p.size.toNat ∧ c.2 ≠ Config.unlistedWord

/-- The memory in canonical form: rising 32-bit identifiers, every page in canonical form. -/
abbrev Memory.wf (pages : PageTable) : Prop :=
  Rising pages ∧ ∀ e ∈ pages, e.1 < Config.idLimit ∧ Page.wf e.2

/-- The page of an identifier, none if it is absent (R26). -/
def State.page (s : State) (id : Word) : Option Page := sparseGet id.toNat s.pages

/-- `Image`: page 0 (R26). The length is 0 if page 0 were absent, which no reachable state has (R28a,
log entry 12). -/
def State.image (s : State) : Page := (s.page 0#32).getD (Page.zeroed 0#32)

/-- The length of a page in words, none if it is absent. -/
def State.pageSize (s : State) (id : Word) : Option Word := (s.page id).map Page.size

/-- THE READ OF ONE WORD OF MEMORY: word k of page id, none if the page is absent or has no word k. -/
def State.wordAt (s : State) (id k : Word) : Option Word := (s.page id).bind fun p => p.read k

/-- The state with one page put into the page table. -/
def State.setPage (s : State) (id : Word) (p : Page) : State := { s with pages := sparseSet id.toNat p s.pages }

/-- The state with one page absent. -/
def State.dropPage (s : State) (id : Word) : State := { s with pages := sparseDrop id.toNat s.pages }

end Sys2Proof.Machine
end

