-- ==== Sys2Proof/Machine/Operands.lean ====
section
/-! DEFINITION. The operand forms (spec/30_encoding.md R83, R84; spec/41_load_store.md R135): a register
field, the one immediate, and the one addressing mode. -/

namespace Sys2Proof.Machine

/-- `x[r]` as a source (R9, R21): every register is an ordinary one (R20). -/
def State.reg (s : State) (r : Reg) : Word := s.regs[r]

/-- `x[r] <- v` (R9, R21). -/
def State.setReg (s : State) (r : Reg) (v : Word) : State := { s with regs := s.regs.set r v }

/-- `pc <- target`, with no check (R24). -/
def State.setPc (s : State) (target : Word) : State := { s with pc := target }

/-- The effective address of opcode 1: page `x[B]`, offset `x[C]` (R135). -/
def loadAddr (b c : Reg) (s : State) : Word × Word := (s.reg b, s.reg c)

/-- The effective address of opcode 2: page `x[A]`, offset `x[B]` (R135). -/
def storeAddr (a b : Reg) (s : State) : Word × Word := (s.reg a, s.reg b)

end Sys2Proof.Machine
end

