-- ==== Sys2Proof/Machine/Flags.lean ====
section
/-! DEFINITION. The block has no flags, condition codes or predicate registers, and no instruction
computes one (spec/10_state.md R25). What takes their place is the test of a general register against
zero, in opcode 0 and opcode 12. -/

namespace Sys2Proof.Machine

/-- The condition of opcode 0 and opcode 12's choice to replace: the register is not zero (R25). -/
def nonZero (v : Word) : Bool := v != 0#32

end Sys2Proof.Machine
end

