-- ==== Sys2Proof/Machine/Ops.lean ====
section
/-! DEFINITION. The shared operations: raising a fault (spec/60_exceptions.md R210 to R213), the address
translation and the one-word accesses (spec/20_memory.md R56 to R58), the page allocator
(spec/42_page_alloc.md R150 to R153), the output and input channels (spec/44_io.md), and the fetch
(spec/43_control.md R170). There is no return from a fault: none exists (R214, R215). -/

namespace Sys2Proof.Machine

/-- The cause code (R210, D8). -/
def Cause.code : Cause → Nat
  | .noFault => 0
  | .memory _ _ => 1
  | .invalidPage _ => 2
  | .arithmetic _ _ => 3
  | .outOfMemory _ => 4
  | .outputRange _ => 5

/-- The recorded value of R210's table, the `info` of `raise F(info)` (R212). -/
def Cause.info : Cause → List Word
  | .noFault => []
  | .memory id k => [id, k]
  | .invalidPage id => [id]
  | .arithmetic dividend _ => [dividend]
  | .outOfMemory size => [size]
  | .outputRange v => [v]

/-- The pc of the instruction being executed: the pc was advanced before dispatch (R23, R170; log entry 11). -/
def State.fpc (s : State) : Word := s.pc - 1#32

/-- TAKING A FAULT: `raise F(info)` at the word `fpc` sets the status and the fault record, and nothing
more (R212, R213). -/
def raiseAt (fpc : Word) (c : Cause) (s : State) : State :=
  { s with status := .faulted, fault := { cause := c, fpc := fpc } }

/-- `raise` by the instruction being executed. -/
def raise (c : Cause) (s : State) : State := raiseAt s.fpc c s

/-- The rest of an instruction after a check that may raise. -/
def orRaise {α : Type} (s : State) (r : Except Cause α) (k : α → State) : State :=
  match r with
  | .ok v => k v
  | .error c => raise c s

/-- `Get(id)`: the page of an identifier, or InvalidPageFault (R56). -/
def getPage (s : State) (id : Word) : Except Cause Page :=
  match s.page id with
  | some p => .ok p
  | none => .error (.invalidPage id)

/-- The page an access addresses: the image for identifier 0, with no `Get`, else `Get(id)` (R57, R58). -/
def addressedPage (s : State) (id : Word) : Except Cause Page :=
  if id = 0#32 then .ok s.image else getPage s id

/-- `PageRead(id, k)`: the identifier is checked before the offset (R57, R131). -/
def pageRead (s : State) (addr : Word × Word) : Except Cause Word :=
  match addressedPage s addr.1 with
  | .error c => .error c
  | .ok p =>
    match p.read addr.2 with
    | some v => .ok v
    | none => .error (.memory addr.1 addr.2)

/-- `PageWrite(id, k, v)`, with the same checks in the same order (R58, R134): the state after it. -/
def pageWrite (s : State) (addr : Word × Word) (v : Word) : Except Cause State :=
  match addressedPage s addr.1 with
  | .error c => .error c
  | .ok p =>
    match p.write addr.2 v with
    | some q => .ok (s.setPage addr.1 q)
    | none => .error (.memory addr.1 addr.2)

/-- The state S a host's predicate is asked about: the spec's own fields, the host's side left out, and with it the
image version and the fault record, on which nothing a program can observe depends (R32, R34; log entry 4). -/
def State.hostView (s : State) : State :=
  { s with imageVer := 0, fault := State.reset.fault, hostInput := [], hostGrants := .always, abortReq := false }

/-- `HostCanAllocate(S, size)` (R6, R150, D6 "OPEN"): the answer of the run's predicate (log entry 4). -/
def hostCanAllocate (s : State) (size : Word) : Bool :=
  match s.hostGrants with
  | .always => true
  | .within sizes pages => decide (size.toNat < sizes ∧ s.pages.length < pages)
  | .anyHost host => Config.hostCanAllocate host s.hostView size

/-- `NewId()`: the most recently freed identifier, else the next fresh one; none when no 32-bit
identifier is left (R151; log entry 13). -/
def newId (s : State) : Option (Word × State) :=
  match s.freeList with
  | id :: rest => some (id, { s with freeList := rest })
  | [] =>
    if s.nextId < Config.idLimit then some (BitVec.ofNat 32 s.nextId, { s with nextId := s.nextId + 1 })
    else none

/-- The allocation of opcode 8 for a given answer of the host (R150): the new identifier and the state
with its zero-filled page. The host-capacity test comes before the identifier test (R216). -/
def allocateWith (hostCan : Bool) (size : Word) (s : State) : Except Cause (Word × State) :=
  if hostCan then
    match newId s with
    | some (id, t) => .ok (id, t.setPage id (Page.zeroed size))
    | none => .error (.outOfMemory size)
  else .error (.outOfMemory size)

/-- The allocation of opcode 8: the host's answer is `HostCanAllocate(S, size)` (R150). -/
def allocate (size : Word) (s : State) : Except Cause (Word × State) :=
  allocateWith (hostCanAllocate s size) size s

/-- The freeing of opcode 9 (R153): the zero test, then the presence test (R216). -/
def release (id : Word) (s : State) : Except Cause State :=
  if id = 0#32 then .error (.invalidPage id)
  else
    match getPage s id with
    | .error c => .error c
    | .ok _ => .ok { s.dropPage id with freeList := id :: s.freeList }

/-- The program replacement of opcode 12, phases CHECK to SWAP (R172, R173): the image becomes a copy of
page `id` unless `id` is 0. -/
def replaceImage (id : Word) (s : State) : Except Cause State :=
  if nonZero id then
    match getPage s id with
    | .error c => .error c
    | .ok p => .ok { s.setPage 0#32 p with imageVer := s.imageVer + 1 }
  else .ok s

/-- `emit(b)` (R190, R193). -/
def emit (b : Byte) (s : State) : State := { s with out := s.out ++ [b] }

/-- The range check of opcode 10 (R190, D4): a value above 255 is no byte. -/
def outByte (v : Word) : Except Cause Byte :=
  if 255#32 < v then .error (.outputRange v) else .ok (v.setWidth 8)

/-- The effect of opcode 11 once end-of-stream is known (R191). -/
def inputEof (c : Reg) (s : State) : State := { s.setReg c Config.eofSentinel with inEOF := true }

/-- The effect of opcode 11 when a byte came: zero-extended (R191). -/
def inputByte (c : Reg) (b : Byte) (s : State) : State := s.setReg c (b.setWidth 32)

/-- `request_input()`: the block raises its input request and waits (R192). -/
def requestInput (c : Reg) (s : State) : State := { s with status := .waitInput c }

/-- The fetch: the word of page 0 at the pc, none when the pc is out of range (R170). -/
def fetch (s : State) : Option Word := s.image.read s.pc

/-- The fetch fault: MemoryFault of identifier 0 and the pc, which stays (R170, R211). -/
def fetchFault (s : State) : State := raiseAt s.pc (.memory 0#32 s.pc) s

/-- The advance before dispatch (R170 step 3). -/
def advance (s : State) : State := { s with pc := s.pc + 1#32 }

end Sys2Proof.Machine
end

