-- ==== Sys2Proof/Machine/Alu.lean ====
section
/-! DEFINITION. The register and ALU instructions (spec/40_alu.md R110 to R116). Every value is unsigned
(R8); sources are read before the destination is written (spec/00_scope.md R10). -/

namespace Sys2Proof.Machine

/-- The exact sum, reduced modulo 2^32 (R111, R116). -/
def aluAdd (x y : Word) : Word := BitVec.ofNat 32 (x.toNat + y.toNat)

/-- The exact product, reduced modulo 2^32 (R112, R116). -/
def aluMul (x y : Word) : Word := BitVec.ofNat 32 (x.toNat * y.toNat)

/-- The unsigned quotient, or ArithmeticFault with the dividend (R113) and, beside it, the divisor (R30; log entry 17). -/
def aluDiv (x y : Word) : Except Cause Word :=
  if y = 0#32 then .error (.arithmetic x y) else .ok (BitVec.ofNat 32 (x.toNat / y.toNat))

/-- The complement of the bitwise and (R114). -/
def aluNand (x y : Word) : Word := ~~~(x &&& y)

/-- `cmov rA, rB, rC`, opcode 0 (R110). -/
def execCmov (a b c : Reg) (s : State) : Host.Outcome State Fault Refusal :=
  .next (if nonZero (s.reg c) then s.setReg a (s.reg b) else s)

/-- `add rA, rB, rC`, opcode 3 (R111). -/
def execAdd (a b c : Reg) (s : State) : Host.Outcome State Fault Refusal :=
  .next (s.setReg a (aluAdd (s.reg b) (s.reg c)))

/-- `mul rA, rB, rC`, opcode 4 (R112). -/
def execMul (a b c : Reg) (s : State) : Host.Outcome State Fault Refusal :=
  .next (s.setReg a (aluMul (s.reg b) (s.reg c)))

/-- `div rA, rB, rC`, opcode 5 (R113). -/
def execDiv (a b c : Reg) (s : State) : Host.Outcome State Fault Refusal :=
  .next (orRaise s (aluDiv (s.reg b) (s.reg c)) fun q => s.setReg a q)

/-- `nand rA, rB, rC`, opcode 6 (R114). -/
def execNand (a b c : Reg) (s : State) : Host.Outcome State Fault Refusal :=
  .next (s.setReg a (aluNand (s.reg b) (s.reg c)))

/-- `li rAi, imm`, opcode 13 (R115): the immediate arrives zero-extended (R83). -/
def execLi (ai : Reg) (imm : Word) (s : State) : Host.Outcome State Fault Refusal :=
  .next (s.setReg ai imm)

end Sys2Proof.Machine
end

