-- ==== Sys2Proof/Machine/Control.lean ====
section
/-! DEFINITION. Halt, load-program / jump and the unknown opcodes (spec/43_control.md R171 to R174). -/

namespace Sys2Proof.Machine

/-- `halt`, opcode 7 (R171). -/
def execHalt (s : State) : Host.Outcome State Fault Refusal := .next { s with status := .halted }

/-- `loadprog rB, rC`, opcode 12 (R172, R173): the target overrides the advance and is not checked (R24). -/
def execLoadprog (b c : Reg) (s : State) : Host.Outcome State Fault Refusal :=
  .next (orRaise s (replaceImage (s.reg b) s) fun t => t.setPc (s.reg c))

/-- Opcode 14: no effect but the advance (R174). -/
def execUnk14 (s : State) : Host.Outcome State Fault Refusal := .next s

/-- Opcode 15: no effect but the advance (R174). -/
def execUnk15 (s : State) : Host.Outcome State Fault Refusal := .next s

end Sys2Proof.Machine
end

