-- ==== Sys2Proof/Machine/Io.lean ====
section
/-! DEFINITION. Byte output and input (spec/44_io.md R190 to R193). -/

namespace Sys2Proof.Machine

/-- `out rC`, opcode 10 (R190). -/
def execOut (c : Reg) (s : State) : Host.Outcome State Fault Refusal :=
  .next (orRaise s (outByte (s.reg c)) fun b => emit b s)

/-- `in rC`, opcode 11 (R191, R192): after end-of-stream the sentinel at once, else the input request,
which `awaitInput` completes (log entry 8). -/
def execInp (c : Reg) (s : State) : Host.Outcome State Fault Refusal :=
  .next (if s.inEOF then s.setReg c Config.eofSentinel else requestInput c s)

end Sys2Proof.Machine
end

