-- ==== Sys2Proof/Machine/LoadStore.lean ====
section
/-! DEFINITION. Indexed load and store (spec/41_load_store.md R130 to R135). -/

namespace Sys2Proof.Machine

/-- `ld rA, rB, rC`, opcode 1 (R130, R131). -/
def execLd (a b c : Reg) (s : State) : Host.Outcome State Fault Refusal :=
  .next (orRaise s (pageRead s (loadAddr b c s)) fun v => s.setReg a v)

/-- `st rA, rB, rC`, opcode 2 (R133, R134). -/
def execSt (a b c : Reg) (s : State) : Host.Outcome State Fault Refusal :=
  .next (orRaise s (pageWrite s (storeAddr a b s) (s.reg c)) fun t => t)

end Sys2Proof.Machine
end

