-- ==== Sys2Proof/Machine/PageAlloc.lean ====
section
/-! DEFINITION. Page allocation and freeing (spec/42_page_alloc.md R150 to R154). -/

namespace Sys2Proof.Machine

/-- `alloc rB, rC`, opcode 8 (R150): the size is read before the identifier is written. -/
def execAlloc (b c : Reg) (s : State) : Host.Outcome State Fault Refusal :=
  .next (orRaise s (allocate (s.reg c) s) fun r => r.2.setReg b r.1)

/-- `free rC`, opcode 9 (R153). -/
def execFree (c : Reg) (s : State) : Host.Outcome State Fault Refusal :=
  .next (orRaise s (release (s.reg c) s) fun t => t)

end Sys2Proof.Machine
end

