-- ==== Sys2Proof/Machine/Dispatch.lean ====
section
/-! DEFINITION. The dispatch: one arm per instruction (spec/43_control.md R170 step 4). The state an arm
sees has its pc advanced already. -/

namespace Sys2Proof.Machine

def exec (i : Instr) (s : State) : Host.Outcome State Fault Refusal :=
  match i with
  | .cmov a b c => Sys2Proof.Machine.execCmov a b c s
  | .ld a b c => Sys2Proof.Machine.execLd a b c s
  | .st a b c => Sys2Proof.Machine.execSt a b c s
  | .add a b c => Sys2Proof.Machine.execAdd a b c s
  | .mul a b c => Sys2Proof.Machine.execMul a b c s
  | .div a b c => Sys2Proof.Machine.execDiv a b c s
  | .nand a b c => Sys2Proof.Machine.execNand a b c s
  | .halt => Sys2Proof.Machine.execHalt s
  | .alloc b c => Sys2Proof.Machine.execAlloc b c s
  | .free c => Sys2Proof.Machine.execFree c s
  | .out c => Sys2Proof.Machine.execOut c s
  | .inp c => Sys2Proof.Machine.execInp c s
  | .loadprog b c => Sys2Proof.Machine.execLoadprog b c s
  | .li ai imm => Sys2Proof.Machine.execLi ai imm s
  | .unk14 => Sys2Proof.Machine.execUnk14 s
  | .unk15 => Sys2Proof.Machine.execUnk15 s

end Sys2Proof.Machine
end

