-- ==== Sys2Proof/WellFormed.lean ====
section
/-! DEFINITION. Well-formed instructions. A register operand is in range by its type (R84); the one check
left is the range of the only immediate (spec/30_encoding.md R83). -/

namespace Sys2Proof

/-- The immediate of opcode 13 is a 25-bit unsigned value, 0 to 0x01FFFFFF (R83). -/
def immFits (imm : Word) : Bool := decide (imm.toNat < 2 ^ 25)

/-- An instruction some word of memory can stand for. -/
def Instr.wf : Instr → Bool
  | .li _ imm => immFits imm
  | .cmov _ _ _ | .ld _ _ _ | .st _ _ _ | .add _ _ _ | .mul _ _ _ | .div _ _ _ | .nand _ _ _ => true
  | .halt | .alloc _ _ | .free _ | .out _ | .inp _ | .loadprog _ _ | .unk14 | .unk15 => true

end Sys2Proof
end

