-- ==== Sys2Proof/Decode.lean ====
section
/-! DEFINITION. The decoder and the encoder (spec/30_encoding.md R80 to R88). Every 32-bit word is an
instruction (R86), so `decode` is total and rejects nothing; `decodeBytes` reads an instruction's four
big-endian bytes (R53) and rejects only a sequence that ends too early. -/

namespace Sys2Proof

/-- `w[hi:lo]`: the bits hi down to lo of a word, read as an unsigned number (R7). -/
def field (w : Word) (hi lo : Nat) : Nat := (w.extractLsb hi lo).toNat

/-- A 3-bit field of a word whose lowest bit is `lo`, as a register index (R84). -/
def regField (w : Word) (lo : Nat) : Reg := Fin.ofNat 8 (field w (lo + 2) lo)

/-- `op = w[31:28]` (R80, R82). -/
def opField (w : Word) : Nat := field w 31 28

/-- The A field of the three-operand layout, `w[8:6]` (R80). -/
def fieldA (w : Word) : Reg := regField w 6

/-- The B field of the three-operand layout, `w[5:3]` (R80). -/
def fieldB (w : Word) : Reg := regField w 3

/-- The C field of the three-operand layout, `w[2:0]` (R80). -/
def fieldC (w : Word) : Reg := regField w 0

/-- The destination of the immediate layout, `w[27:25]` (R81). -/
def fieldAi (w : Word) : Reg := regField w 25

/-- The immediate, `zext_32(w[24:0])` (R81, R83). -/
def fieldImm (w : Word) : Word := BitVec.ofNat 32 (field w 24 0)

/-- The decoder: the opcode alone selects the instruction (R82). The last arm is opcode 15, the only
4-bit value left. -/
def decode (w : Word) : Instr :=
  match opField w with
  | 0 => .cmov (fieldA w) (fieldB w) (fieldC w)
  | 1 => .ld (fieldA w) (fieldB w) (fieldC w)
  | 2 => .st (fieldA w) (fieldB w) (fieldC w)
  | 3 => .add (fieldA w) (fieldB w) (fieldC w)
  | 4 => .mul (fieldA w) (fieldB w) (fieldC w)
  | 5 => .div (fieldA w) (fieldB w) (fieldC w)
  | 6 => .nand (fieldA w) (fieldB w) (fieldC w)
  | 7 => .halt
  | 8 => .alloc (fieldB w) (fieldC w)
  | 9 => .free (fieldC w)
  | 10 => .out (fieldC w)
  | 11 => .inp (fieldC w)
  | 12 => .loadprog (fieldB w) (fieldC w)
  | 13 => .li (fieldAi w) (fieldImm w)
  | 14 => .unk14
  | _ => .unk15

/-- Word i of an image file from its bytes 4i to 4i+3: big-endian (R53, R241). -/
def beWord (b0 b1 b2 b3 : Byte) : Word := b0 ++ b1 ++ b2 ++ b3

/-- The bytes of a word as the image file holds them (R53). -/
def beBytes (w : Word) : List Byte :=
  [w.extractLsb' 24 8, w.extractLsb' 16 8, w.extractLsb' 8 8, w.extractLsb' 0 8]

/-- Why a byte sequence is no instruction: it ends before the fourth byte (R87). -/
inductive DecodeError where
  | truncated
  deriving DecidableEq, Repr

/-- The instruction at the head of a byte sequence, and the rest of the sequence (R87: one word, always). -/
def decodeBytes : List Byte → Except DecodeError (Instr × List Byte)
  | b0 :: b1 :: b2 :: b3 :: rest => .ok (decode (beWord b0 b1 b2 b3), rest)
  | _ => .error .truncated

/-- The instruction the decoder reads from a row of the opcode table whose bits are `w`, for the host. -/
def decodeTableWord (nbits w : Nat) : Option Instr :=
  match decodeBytes (beBytes (BitVec.ofNat 32 (w % 2 ^ nbits))) with
  | .ok (i, _) => some i
  | .error _ => none

/-- The opcode of an instruction (R88). -/
def Instr.opcode : Instr → Nat
  | .cmov _ _ _ => 0
  | .ld _ _ _ => 1
  | .st _ _ _ => 2
  | .add _ _ _ => 3
  | .mul _ _ _ => 4
  | .div _ _ _ => 5
  | .nand _ _ _ => 6
  | .halt => 7
  | .alloc _ _ => 8
  | .free _ => 9
  | .out _ => 10
  | .inp _ => 11
  | .loadprog _ _ => 12
  | .li _ _ => 13
  | .unk14 => 14
  | .unk15 => 15

/-- The three-operand layout: `(op << 28) | (A << 6) | (B << 3) | C`, bits[27:9] written as 0 (R88). -/
def encode3 (op : Nat) (a b c : Reg) : Word :=
  (BitVec.ofNat 32 op <<< 28) ||| (BitVec.ofNat 32 a.val <<< 6) ||| (BitVec.ofNat 32 b.val <<< 3) |||
    BitVec.ofNat 32 c.val

/-- The immediate layout: `(13 << 28) | (Ai << 25) | imm` (R88). -/
def encodeImm (ai : Reg) (imm : Word) : Word :=
  (13#32 <<< 28) ||| (BitVec.ofNat 32 ai.val <<< 25) ||| (imm &&& 0x01FFFFFF#32)

/-- The encoder: every ignored bit is written as 0 (R88, R89). -/
def encode : Instr → Word
  | .cmov a b c => encode3 0 a b c
  | .ld a b c => encode3 1 a b c
  | .st a b c => encode3 2 a b c
  | .add a b c => encode3 3 a b c
  | .mul a b c => encode3 4 a b c
  | .div a b c => encode3 5 a b c
  | .nand a b c => encode3 6 a b c
  | .halt => encode3 7 0 0 0
  | .alloc b c => encode3 8 0 b c
  | .free c => encode3 9 0 0 c
  | .out c => encode3 10 0 0 c
  | .inp c => encode3 11 0 0 c
  | .loadprog b c => encode3 12 0 b c
  | .li ai imm => encodeImm ai imm
  | .unk14 => encode3 14 0 0 0
  | .unk15 => encode3 15 0 0 0

/-- The bits of a word that take part in the instruction it is: the opcode and the fields that R88 does
not mark "–" for it. The others are ignored (R85). -/
def usedBits (w : Word) : Word :=
  match opField w with
  | 0 | 1 | 2 | 3 | 4 | 5 | 6 => 0xF00001FF#32
  | 8 | 12 => 0xF000003F#32
  | 9 | 10 | 11 => 0xF0000007#32
  | 13 => 0xFFFFFFFF#32
  | _ => 0xF0000000#32

end Sys2Proof
end

