-- ==== Sys2Proof/Machine/HostSide.lean ====
section
/-! DEFINITION. The block's interface to the host (spec/60_exceptions.md R222): the image load at reset,
the answer to an input request, the abort, and what the host may do between two steps. -/

namespace Sys2Proof.Machine

/-- The words of an image file: big-endian, no header; none if the length is no multiple of 4 (R241). -/
def imageWords : List Byte → Option (List Word)
  | [] => some []
  | b0 :: b1 :: b2 :: b3 :: rest =>
    match imageWords rest with
    | some ws => some (beWord b0 b1 b2 b3 :: ws)
    | none => none
  | _ => none

/-- The reset state with a given word sequence as page 0 (R240). -/
def State.resetWith (ws : List Word) : State := { State.reset with pages := [(0, Page.ofWords ws)] }

/-- `load` (R222, R241): the state after reset with an image file loaded; none for a file that is not
loaded, where the block never leaves reset (D12). -/
def State.load (file : List Byte) : Option State :=
  match imageWords file with
  | some ws => if ws.length ≤ Config.maxImageWords then some (State.resetWith ws) else none
  | none => none

/-- The run is over: HALTED, FAULTED and ABORTED are final (R29, R176). -/
def Status.over : Status → Bool
  | .running => false
  | .waitInput _ => false
  | .halted => true
  | .faulted => true
  | .aborted => true

/-- `in_req`: the block asks for one byte (R222). -/
def State.inReq (s : State) : Bool :=
  match s.status with
  | .waitInput _ => true
  | .running | .halted | .faulted | .aborted => false

/-- The block takes the host's abort and takes no further step (R218). A waiting opcode 11 has no effect. -/
def takeAbort (s : State) : State := { s with status := .aborted, abortReq := false }

/-- The input wait of the opcode 11 that writes register `c` (R192): the host's answer completes it in one
step; with no answer nothing changes (R245). -/
def awaitInput (c : Reg) (s : State) : State :=
  match s.hostInput with
  | [] => s
  | .byte b :: rest => inputByte c b { s with status := .running, hostInput := rest }
  | .eof :: rest => inputEof c { s with status := .running, hostInput := rest }

/-- What the host can do between two steps (R222): give its next answer, ask for an abort, or come to
answer allocations by another predicate, which is more than D6 asks for (log entry 4). -/
inductive HostAct where
  | answer (r : InResp)
  | abort
  | capacity (grants : HostGrants)
  deriving DecidableEq, Repr

/-- The state after an act of the host: only the host's side changes. -/
def hostAct (a : HostAct) (s : State) : State :=
  match a with
  | .answer r => { s with hostInput := s.hostInput ++ [r] }
  | .abort => { s with abortReq := true }
  | .capacity g => { s with hostGrants := g }

end Sys2Proof.Machine
end

