-- ==== Sys2Proof/Machine/Step.lean ====
section
/-! DEFINITION. One step of the block (spec/43_control.md R170, R176; spec/44_io.md R192;
spec/60_exceptions.md R218). -/

namespace Sys2Proof.Machine

/-- One instruction: fetch, decode, advance, dispatch (R170). -/
def runInstr (s : State) : Host.Outcome State Fault Refusal :=
  match fetch s with
  | none => .next (fetchFault s)
  | some w => exec (decode w) (advance s)

/-- The step. The host's abort is taken between two steps or during the input wait (R218); a waiting block
does nothing until the host answers (R192, log entry 9); no step is defined from a final state (R176). -/
def step (s : State) : Host.Outcome State Fault Refusal :=
  match s.status with
  | .running => if s.abortReq then .next (takeAbort s) else runInstr s
  | .waitInput c => if s.abortReq then .next (takeAbort s) else .next (awaitInput c s)
  | .halted => .fault .runHalted
  | .faulted => .fault .runFaulted
  | .aborted => .fault .runAborted

/-- For the host: the state with one instruction word placed where the next step fetches, in a running
state with no abort asked for. The image is made long enough to hold the word; a pc that no image can
reach (2^32 − 1) is moved to 0 (log entry 16). -/
def State.withFetchWord (s : State) (nbits w : Nat) : State :=
  let at0 : Word := if s.pc = 0xFFFFFFFF#32 then 0#32 else s.pc
  let img : Page := if s.image.size ≤ at0 then { s.image with size := at0 + 1#32 } else s.image
  let word : Word := BitVec.ofNat 32 (w % 2 ^ nbits)
  { s.setPage 0#32 ((img.write at0 word).getD img) with pc := at0, status := .running, abortReq := false }

end Sys2Proof.Machine
end

