-- ==== Sys2Proof/Machine/Pseudo.lean ====
section
/-! DEFINITION. Assembler lines: the pseudo-instructions and their exact expansions, and the text of an
instruction (spec/30_encoding.md R89, R90). Notation only: the machine never sees it. -/

namespace Sys2Proof.Machine

/-- A line of a program (R89, R90): an instruction, `.word v`, or a pseudo-instruction. -/
inductive AsmLine where
  | instr (i : Instr)
  | word (v : Word)
  | nop
  | not (a b : Reg)
  | and (a b c : Reg)
  | mov (a b z : Reg)
  | jmp (z c : Reg)
  deriving DecidableEq, Repr

/-- The instructions a pseudo-instruction stands for (R90). -/
def AsmLine.expand : AsmLine → List Instr
  | .instr i => [i]
  | .word v => [decode v]
  | .nop => [.cmov 0 0 0]
  | .not a b => [.nand a b b]
  | .and a b c => [.nand a b c, .nand a a a]
  | .mov a b z => [.add a b z]
  | .jmp z c => [.loadprog z c]

/-- The words a line places (R89): ignored bits are 0, but `.word` keeps its word as it is. -/
def AsmLine.assemble : AsmLine → List Word
  | .word v => [v]
  | .instr i => [encode i]
  | .nop => (AsmLine.expand .nop).map encode
  | .not a b => (AsmLine.expand (.not a b)).map encode
  | .and a b c => (AsmLine.expand (.and a b c)).map encode
  | .mov a b z => (AsmLine.expand (.mov a b z)).map encode
  | .jmp z c => (AsmLine.expand (.jmp z c)).map encode

/-- The name of a register, `r0` to `r7` (R89). -/
def regText (r : Reg) : String := "r" ++ toString r.val

/-- A mnemonic and its operands, separated by commas (R89). -/
def lineText (name : String) (operands : List String) : String :=
  if operands.isEmpty then name else name ++ " " ++ ", ".intercalate operands

/-- The text of an instruction: the used fields in the order A, B, C, the immediate in decimal (R89). -/
def instrText : Instr → String
  | .cmov a b c => lineText "cmov" [regText a, regText b, regText c]
  | .ld a b c => lineText "ld" [regText a, regText b, regText c]
  | .st a b c => lineText "st" [regText a, regText b, regText c]
  | .add a b c => lineText "add" [regText a, regText b, regText c]
  | .mul a b c => lineText "mul" [regText a, regText b, regText c]
  | .div a b c => lineText "div" [regText a, regText b, regText c]
  | .nand a b c => lineText "nand" [regText a, regText b, regText c]
  | .halt => lineText "halt" []
  | .alloc b c => lineText "alloc" [regText b, regText c]
  | .free c => lineText "free" [regText c]
  | .out c => lineText "out" [regText c]
  | .inp c => lineText "in" [regText c]
  | .loadprog b c => lineText "loadprog" [regText b, regText c]
  | .li ai imm => lineText "li" [regText ai, toString imm.toNat]
  | .unk14 => lineText "unk14" []
  | .unk15 => lineText "unk15" []

end Sys2Proof.Machine
end

