-- ==== Sys2Proof/Safety.lean ====
section
/-! DEFINITION. The terms the claims use: the invariant of every reachable state (spec/10_state.md R28,
spec/20_memory.md R50), frames, the table of faults (spec/60_exceptions.md R211), and runs in which the
host acts between steps (spec/60_exceptions.md R222). -/

namespace Sys2Proof.Machine

/-- The invariants of R28, (a) to (e), with the range of the counter (R27) and the canonical form of the
memory. Identifiers are taken as numbers, so (b) and (d) speak of every number. -/
structure State.Inv (s : State) : Prop where
  /-- R28 (a): page 0 is present -/
  image : (sparseGet 0 s.pages).isSome
  /-- R28 (b): every identifier from `nextId` on is absent -/
  fresh : ∀ n, s.nextId ≤ n → sparseGet n s.pages = none
  /-- R28 (c): the freed identifiers are distinct -/
  distinct : s.freeList.Nodup
  /-- R28 (c): each freed identifier is in [1, nextId − 1] -/
  range : ∀ id ∈ s.freeList, 1 ≤ id.toNat ∧ id.toNat < s.nextId
  /-- R28 (c): each freed identifier is absent -/
  freed : ∀ id ∈ s.freeList, sparseGet id.toNat s.pages = none
  /-- R28 (d): every other identifier handed out is present -/
  live : ∀ n, 1 ≤ n → n < s.nextId → (∀ id ∈ s.freeList, id.toNat ≠ n) → (sparseGet n s.pages).isSome
  /-- R28 (e) -/
  bound : s.nextId ≤ Config.idLimit
  /-- the counter starts at 1 and never goes down (R27) -/
  positive : 1 ≤ s.nextId
  /-- the memory is in canonical form (log entry 1) -/
  memory : Memory.wf s.pages

/-- A run: steps that answer a next state, with acts of the host between them (R218, R222). -/
inductive Reach : State → State → Prop where
  | refl (s : State) : Reach s s
  | step {s t u : State} : Reach s t → Sys2Proof.Machine.step t = .next u → Reach s u
  | host {s t : State} (a : HostAct) : Reach s t → Reach s (hostAct a t)

/-- `k` steps with no act of the host between them, up to the first that stops. -/
def runSteps : Nat → State → Host.Outcome State Fault Refusal
  | 0, s => .next s
  | k + 1, s =>
    match step s with
    | .next t => runSteps k t
    | .fault r => .fault r
    | .refused r => .refused r

/-- Every word of memory reads as before, and every page has its length or absence as before. -/
def SameMemory (s t : State) : Prop :=
  (∀ id, t.pageSize id = s.pageSize id) ∧ ∀ id k, t.wordAt id k = s.wordAt id k

/-- Nothing but register `a` differs: the other registers, the memory, and every other field (the pc,
the allocator, the status, the fault record, the channels, the host's side) are as before. -/
def OnlyReg (a : Reg) (s t : State) : Prop :=
  t = { s with regs := t.regs } ∧ (∀ r, r ≠ a → t.reg r = s.reg r) ∧ SameMemory s t

/-- Nothing but word k of page id differs, and every page keeps its length. -/
def OnlyWord (id k : Word) (s t : State) : Prop :=
  t = { s with pages := t.pages } ∧ (∀ j, t.pageSize j = s.pageSize j) ∧
    ∀ j o, (j, o) ≠ (id, k) → t.wordAt j o = s.wordAt j o

/-- The pages but page id are as before, word for word. -/
def SameOtherPages (id : Word) (s t : State) : Prop :=
  ∀ j, j ≠ id → t.pageSize j = s.pageSize j ∧ ∀ k, t.wordAt j k = s.wordAt j k

/-- The instruction faults with a cause: the next state differs in the status and the fault record only,
and the record holds the pc of the instruction, one below the advanced pc (R212, R213, R30). -/
def FaultsWith (c : Cause) (i : Instr) (s : State) : Prop :=
  exec i s = .next { s with status := .faulted, fault := { cause := c, fpc := s.pc - 1#32 } }

/-- The fault of an access to word k of page id, presence before bounds (R211, R216). -/
def accessFault (id k : Word) (s : State) : Option Cause :=
  match s.pageSize id with
  | none => some (.invalidPage id)
  | some n => if n ≤ k then some (.memory id k) else none

/-- The table of R211, a row per instruction that can fault, in the order of R216. -/
def faultOf (i : Instr) (s : State) : Option Cause :=
  match i with
  | .ld _ b c => accessFault (s.reg b) (s.reg c) s
  | .st a b _ => accessFault (s.reg a) (s.reg b) s
  | .div _ b c => if s.reg c = 0#32 then some (.arithmetic (s.reg b) (s.reg c)) else none
  | .alloc _ c =>
    if hostCanAllocate s (s.reg c) = false then some (.outOfMemory (s.reg c))
    else if s.freeList = [] ∧ s.nextId = 2 ^ 32 then some (.outOfMemory (s.reg c))
    else none
  | .free c => if s.reg c = 0#32 ∨ s.pageSize (s.reg c) = none then some (.invalidPage (s.reg c)) else none
  | .out c => if 255 < (s.reg c).toNat then some (.outputRange (s.reg c)) else none
  | .loadprog b _ =>
    if s.reg b ≠ 0#32 ∧ s.pageSize (s.reg b) = none then some (.invalidPage (s.reg b)) else none
  | .cmov _ _ _ | .add _ _ _ | .mul _ _ _ | .nand _ _ _ | .halt => none
  | .inp _ | .li _ _ | .unk14 | .unk15 => none

/-- The register an instruction writes, by R21's list; opcode 11 counts, whether it writes at once or when
its wait ends. -/
def destReg : Instr → Option Reg
  | .cmov a _ _ | .ld a _ _ | .add a _ _ | .mul a _ _ | .div a _ _ | .nand a _ _ => some a
  | .alloc b _ => some b
  | .inp c => some c
  | .li ai _ => some ai
  | .st _ _ _ | .halt | .free _ | .out _ | .loadprog _ _ | .unk14 | .unk15 => none

/-- The instruction a running block is about to execute: the word of page 0 at the pc, decoded; none where
the next step executes no instruction. -/
def nextInstr (s : State) : Option Instr :=
  match s.status with
  | .running => if s.abortReq then none else (s.wordAt 0#32 s.pc).map decode
  | .waitInput _ | .halted | .faulted | .aborted => none

/-- Every word with a given opcode in bits[31:28] decodes to one form (R82, R88). -/
def HasOpcode (op : Nat) (form : Word → Instr) : Prop := ∀ w : Word, w.toNat / 2 ^ 28 = op → decode w = form w

/-- The bytes the next step emits: those of an opcode 10 whose value is a byte (R190, R193). -/
def emittedNext (s : State) : List Byte :=
  match nextInstr s with
  | some (.out c) => if (s.reg c).toNat ≤ 255 then [BitVec.ofNat 8 (s.reg c).toNat] else []
  | _ => []

/-- A run that starts in one state, with the bytes its steps emitted, in order, and acts of the host between
the steps (R193, R222). -/
inductive RunEmitting : State → List Byte → State → Prop where
  | refl (s : State) : RunEmitting s [] s
  | step {s t u : State} {bs : List Byte} :
    RunEmitting s bs t → Sys2Proof.Machine.step t = .next u → RunEmitting s (bs ++ emittedNext t) u
  | host {s t : State} {bs : List Byte} (a : HostAct) : RunEmitting s bs t → RunEmitting s bs (hostAct a t)

/-- What a successful allocation of `size` words to register b leaves, beside the allocator's own choice of
the identifier: a zero-filled page under it, and every other page, register and field as before (R150). -/
def AllocFrame (b : Reg) (size : Word) (s t : State) : Prop :=
  t.pageSize (t.reg b) = some size ∧ (∀ k, k < size → t.wordAt (t.reg b) k = some 0#32) ∧
    SameOtherPages (t.reg b) s t ∧ (∀ r, r ≠ b → t.reg r = s.reg r) ∧
    t = { s with regs := t.regs, pages := t.pages, freeList := t.freeList, nextId := t.nextId }

/-- Two states no program can tell apart by the image version and the fault record (R32, R34). -/
def SameVisible (s t : State) : Prop := t = { s with imageVer := t.imageVer, fault := t.fault }

/-- The instructions of a list, one after another, each with the advance before it and every one of them
ending in a next state. -/
def runList : List Instr → State → Option State
  | [], s => some s
  | i :: rest, s =>
    match exec i (advance s) with
    | .next t => runList rest t
    | .fault _ => none
    | .refused _ => none

end Sys2Proof.Machine
end

