-- ==== Sys2Proof/Certificates/Slice0/Obligations.lean ====
section
/-! DEFINITION. The statements for the provers, from the numbered rules of spec/. -/

open Sys2Proof Sys2Proof.Machine

/-! ### Reset and load -/

/-- spec/10_state.md section 8, spec/70_reset_and_hazards.md section 1, for the image of no words (that
image is the model's choice, log entry 2): the values the spec gives after reset, of which the pc, the counter,
the image version, the status and end-of-stream are its decisions D1, D7, D11, D10 and D5. -/
def Obligations.ResetLeavesTheGivenValues : Prop :=
  (∀ r, State.reset.reg r = 0#32) ∧ State.reset.pc = 0#32 ∧ State.reset.pageSize 0#32 = some 0#32 ∧
    (∀ id, id ≠ 0#32 → State.reset.pageSize id = none) ∧ State.reset.freeList = [] ∧ State.reset.nextId = 1 ∧
    State.reset.imageVer = 0 ∧ State.reset.status = .running ∧ State.reset.out = [] ∧ State.reset.inEOF = false

/-- spec/70_reset_and_hazards.md section 1 with its decisions D1, D5, D7, D10, D11 and D12: which image files are
loaded, and the state a loaded file leaves, word i of page 0 being bytes 4i to 4i+3 of the file, the first the most
significant. -/
def Obligations.LoadedImageGivesTheResetState : Prop :=
  ∀ file : List Byte,
    (file.length % 4 = 0 → file.length / 4 ≤ 2 ^ 32 - 1 →
      ∃ s, State.load file = some s ∧
        s.pageSize 0#32 = some (BitVec.ofNat 32 (file.length / 4)) ∧
        (∀ i, i < file.length / 4 → ∃ w, s.wordAt 0#32 (BitVec.ofNat 32 i) = some w ∧
          w.toNat = (file.getD (4 * i) 0#8).toNat * 2 ^ 24 + (file.getD (4 * i + 1) 0#8).toNat * 2 ^ 16 +
            (file.getD (4 * i + 2) 0#8).toNat * 2 ^ 8 + (file.getD (4 * i + 3) 0#8).toNat) ∧
        (∀ id, id ≠ 0#32 → s.pageSize id = none) ∧
        (∀ r, s.reg r = 0#32) ∧ s.pc = 0#32 ∧ s.freeList = [] ∧ s.nextId = 1 ∧ s.imageVer = 0 ∧
        s.status = .running ∧ s.out = [] ∧ s.inEOF = false) ∧
    (file.length % 4 ≠ 0 ∨ 2 ^ 32 - 1 < file.length / 4 → State.load file = none)

/-- spec/10_state.md section 4: the invariants of R28 and the canonical memory hold at reset. -/
def Obligations.ResetMeetsInvariant : Prop := State.reset.Inv

/-! ### Decoding and encoding -/

/-- spec/30_encoding.md R80, R81 and R83: the fields of both layouts, as quotients and remainders of the word,
in the instruction every opcode selects. -/
def Obligations.DecodeReadsTheLayoutFields : Prop :=
  ∀ (w : Word) (a b c ai : Reg),
    a.val = w.toNat / 2 ^ 6 % 2 ^ 3 → b.val = w.toNat / 2 ^ 3 % 2 ^ 3 → c.val = w.toNat % 2 ^ 3 →
    ai.val = w.toNat / 2 ^ 25 % 2 ^ 3 →
    decode w =
      match w.toNat / 2 ^ 28 with
      | 0 => .cmov a b c
      | 1 => .ld a b c
      | 2 => .st a b c
      | 3 => .add a b c
      | 4 => .mul a b c
      | 5 => .div a b c
      | 6 => .nand a b c
      | 7 => .halt
      | 8 => .alloc b c
      | 9 => .free c
      | 10 => .out c
      | 11 => .inp c
      | 12 => .loadprog b c
      | 13 => .li ai (BitVec.ofNat 32 (w.toNat % 2 ^ 25))
      | 14 => .unk14
      | _ => .unk15

/-- spec/30_encoding.md sections 1 and 4: the number that encodes each instruction, ignored bits 0. -/
def Obligations.EncodeWritesTheLayoutFields : Prop :=
  ∀ i : Instr, i.wf = true →
    (encode i).toNat =
      match i with
      | .cmov a b c => a.val * 2 ^ 6 + b.val * 2 ^ 3 + c.val
      | .ld a b c => 1 * 2 ^ 28 + a.val * 2 ^ 6 + b.val * 2 ^ 3 + c.val
      | .st a b c => 2 * 2 ^ 28 + a.val * 2 ^ 6 + b.val * 2 ^ 3 + c.val
      | .add a b c => 3 * 2 ^ 28 + a.val * 2 ^ 6 + b.val * 2 ^ 3 + c.val
      | .mul a b c => 4 * 2 ^ 28 + a.val * 2 ^ 6 + b.val * 2 ^ 3 + c.val
      | .div a b c => 5 * 2 ^ 28 + a.val * 2 ^ 6 + b.val * 2 ^ 3 + c.val
      | .nand a b c => 6 * 2 ^ 28 + a.val * 2 ^ 6 + b.val * 2 ^ 3 + c.val
      | .halt => 7 * 2 ^ 28
      | .alloc b c => 8 * 2 ^ 28 + b.val * 2 ^ 3 + c.val
      | .free c => 9 * 2 ^ 28 + c.val
      | .out c => 10 * 2 ^ 28 + c.val
      | .inp c => 11 * 2 ^ 28 + c.val
      | .loadprog b c => 12 * 2 ^ 28 + b.val * 2 ^ 3 + c.val
      | .li ai imm => 13 * 2 ^ 28 + ai.val * 2 ^ 25 + imm.toNat
      | .unk14 => 14 * 2 ^ 28
      | .unk15 => 15 * 2 ^ 28

/-- spec/30_encoding.md sections 1 and 4: decoding an encoded well-formed instruction gives it back, as a word
and from its four big-endian bytes with any bytes after them. -/
def Obligations.DecodeOfEncodeIsTheInstruction : Prop :=
  ∀ i : Instr, i.wf = true →
    decode (encode i) = i ∧ ∀ rest, decodeBytes (beBytes (encode i) ++ rest) = .ok (i, rest)

/-- spec/30_encoding.md sections 3 and 5 (decisions D2, D13): encoding a decoded word clears the ignored bits
and keeps every other bit. -/
def Obligations.EncodeOfDecodeClearsIgnoredBits : Prop := ∀ w : Word, encode (decode w) = w &&& usedBits w

/-- spec/30_encoding.md section 3 (decision D2): two words are the same instruction exactly when they agree on
the bits that instruction uses. -/
def Obligations.SameInstructionIffSameUsedBits : Prop :=
  ∀ w v : Word, decode w = decode v ↔ opField w = opField v ∧ w &&& usedBits w = v &&& usedBits w

/-- spec/30_encoding.md sections 1 to 3: every word is a well-formed instruction, of the opcode in its bits
[31:28]. -/
def Obligations.EveryWordIsAnInstruction : Prop :=
  ∀ w : Word, (decode w).wf = true ∧ (decode w).opcode = w.toNat / 2 ^ 28

/-- spec/95_test_vectors.md V-E1 to V-E10 (decision D2 for the ignored bits): words of the spec and what they are. -/
def Obligations.TheSpecsWordsDecode : Prop :=
  decode 0x00000000#32 = .cmov 0 0 0 ∧ decode 0x30000053#32 = .add 1 2 3 ∧ decode 0x3FFFFE53#32 = .add 1 2 3 ∧
    decode 0xD2000048#32 = .li 1 72#32 ∧ decode 0xDFFFFFFF#32 = .li 7 0x1FFFFFF#32 ∧
    decode 0xD00001FF#32 = .li 0 0x1FF#32 ∧ decode 0x7FFFFFFF#32 = .halt ∧ decode 0xE0000000#32 = .unk14 ∧
    decode 0xF1234567#32 = .unk15 ∧ decode 0x80000011#32 = .alloc 2 1 ∧ decode 0xC0000006#32 = .loadprog 0 6

/-! ### The step -/

/-- spec/43_control.md, the instruction step: a running block with no abort asked for runs the instruction the
word of page 0 at the pc stands for, on the state with the pc advanced. -/
def Obligations.StepRunsTheDecodedInstruction : Prop :=
  ∀ (s : State) (w : Word), s.status = .running → s.abortReq = false → s.wordAt 0#32 s.pc = some w →
    (decode w).wf = true ∧ step s = exec (decode w) { s with pc := s.pc + 1#32 }

/-- spec/43_control.md, the instruction step, and spec/60_exceptions.md section 1: a fetch at or beyond the end
of the image is MemoryFault(0, pc), the pc stays, and nothing else changes. -/
def Obligations.FetchBeyondTheImageFaults : Prop :=
  ∀ (s : State) (n : Word), s.status = .running → s.abortReq = false → s.pageSize 0#32 = some n → n ≤ s.pc →
    step s = .next { s with status := .faulted, fault := { cause := .memory 0#32 s.pc, fpc := s.pc } }

/-- spec/10_state.md section 2 (decisions D12, D21): where a fetch succeeds the advance does not wrap. -/
def Obligations.TheAdvanceNeverWraps : Prop :=
  ∀ (s : State) (w : Word), s.wordAt 0#32 s.pc = some w → (s.pc + 1#32).toNat = s.pc.toNat + 1

/-- spec/43_control.md R176 and log entry 10: a step stops exactly in the final states and refuses nothing. -/
def Obligations.StepStopsExactlyWhenTheRunIsOver : Prop :=
  ∀ s : State,
    (s.status = .halted ↔ step s = .fault .runHalted) ∧ (s.status = .faulted ↔ step s = .fault .runFaulted) ∧
      (s.status = .aborted ↔ step s = .fault .runAborted) ∧ (∀ r, step s ≠ .refused r) ∧
      (s.status.over = false → ∃ t, step s = .next t)

/-- spec/10_state.md section 5 (decision D10) and spec/43_control.md, the end of a run: HALTED comes from opcode 7 alone, ABORTED
from the host's abort alone, a wait begins at an opcode 11 before end-of-stream and ends only by an answer. -/
def Obligations.StatusChangesOnlyAsDescribed : Prop :=
  ∀ s t : State, step s = .next t →
    (t.status = .halted → nextInstr s = some .halt) ∧
    (t.status = .aborted → s.abortReq = true) ∧
    (∀ c, t.status = .waitInput c →
      (nextInstr s = some (.inp c) ∧ s.inEOF = false) ∨ (s.status = .waitInput c ∧ s.hostInput = [] ∧ t = s)) ∧
    (t.status = .running → s.status = .running ∨ ∃ c, s.status = .waitInput c ∧ s.hostInput ≠ [])

/-! ### Register and ALU instructions -/

/-- spec/40_alu.md R110. -/
def Obligations.CmovMovesWhenConditionHolds : Prop :=
  HasOpcode 0 (fun w => .cmov (fieldA w) (fieldB w) (fieldC w)) ∧
  ∀ (a b c : Reg) (s : State),
    (s.reg c ≠ 0#32 → ∃ t, exec (.cmov a b c) s = .next t ∧ t.reg a = s.reg b ∧ OnlyReg a s t) ∧
    (s.reg c = 0#32 → exec (.cmov a b c) s = .next s)

/-- spec/40_alu.md R111. -/
def Obligations.AddWritesTheSumModulo : Prop :=
  HasOpcode 3 (fun w => .add (fieldA w) (fieldB w) (fieldC w)) ∧
  ∀ (a b c : Reg) (s : State),
    ∃ t, exec (.add a b c) s = .next t ∧ (t.reg a).toNat = ((s.reg b).toNat + (s.reg c).toNat) % 2 ^ 32 ∧ OnlyReg a s t

/-- spec/40_alu.md R112. -/
def Obligations.MulWritesTheProductModulo : Prop :=
  HasOpcode 4 (fun w => .mul (fieldA w) (fieldB w) (fieldC w)) ∧
  ∀ (a b c : Reg) (s : State),
    ∃ t, exec (.mul a b c) s = .next t ∧ (t.reg a).toNat = ((s.reg b).toNat * (s.reg c).toNat) % 2 ^ 32 ∧ OnlyReg a s t

/-- spec/40_alu.md R113. The record's further value, the divisor (R30; log entry 17), is left open here;
`FaultsAreThoseOfTheTable` says it. -/
def Obligations.DivWritesTheQuotientOrFaults : Prop :=
  HasOpcode 5 (fun w => .div (fieldA w) (fieldB w) (fieldC w)) ∧
  ∀ (a b c : Reg) (s : State),
    (s.reg c ≠ 0#32 →
      ∃ t, exec (.div a b c) s = .next t ∧ (t.reg a).toNat = (s.reg b).toNat / (s.reg c).toNat ∧ OnlyReg a s t) ∧
    (s.reg c = 0#32 → ∃ divisor, FaultsWith (.arithmetic (s.reg b) divisor) (.div a b c) s)

/-- spec/40_alu.md R114. -/
def Obligations.NandWritesTheComplementOfTheAnd : Prop :=
  HasOpcode 6 (fun w => .nand (fieldA w) (fieldB w) (fieldC w)) ∧
  ∀ (a b c : Reg) (s : State),
    ∃ t, exec (.nand a b c) s = .next t ∧
      (∀ j, j < 32 → (t.reg a).getLsbD j = !((s.reg b).getLsbD j && (s.reg c).getLsbD j)) ∧ OnlyReg a s t

/-- spec/40_alu.md R115. -/
def Obligations.LiWritesTheZeroExtendedImmediate : Prop :=
  (∀ w : Word, w.toNat / 2 ^ 28 = 13 →
    decode w = .li (fieldAi w) (BitVec.ofNat 32 (w.toNat % 2 ^ 25)) ∧ (fieldAi w).val = w.toNat / 2 ^ 25 % 2 ^ 3) ∧
  ∀ (ai : Reg) (imm : Word) (s : State), (Instr.li ai imm).wf = true →
    ∃ t, exec (.li ai imm) s = .next t ∧ t.reg ai = imm ∧ (t.reg ai).toNat ≤ 0x01FFFFFF ∧ OnlyReg ai s t

/-! ### Load and store -/

/-- spec/41_load_store.md R130. -/
def Obligations.LdReadsTheAddressedWordOrFaults : Prop :=
  HasOpcode 1 (fun w => .ld (fieldA w) (fieldB w) (fieldC w)) ∧
  ∀ (a b c : Reg) (s : State),
    (∀ v, s.wordAt (loadAddr b c s).1 (loadAddr b c s).2 = some v →
      ∃ t, exec (.ld a b c) s = .next t ∧ t.reg a = v ∧ OnlyReg a s t) ∧
    (s.reg b ≠ 0#32 → s.pageSize (s.reg b) = none → FaultsWith (.invalidPage (s.reg b)) (.ld a b c) s) ∧
    (∀ n, s.pageSize (s.reg b) = some n → n ≤ s.reg c → FaultsWith (.memory (s.reg b) (s.reg c)) (.ld a b c) s)

/-- spec/41_load_store.md R133. -/
def Obligations.StWritesTheAddressedWordOrFaults : Prop :=
  HasOpcode 2 (fun w => .st (fieldA w) (fieldB w) (fieldC w)) ∧
  ∀ (a b c : Reg) (s : State),
    ((s.wordAt (storeAddr a b s).1 (storeAddr a b s).2).isSome = true →
      ∃ t, exec (.st a b c) s = .next t ∧
        t.wordAt (storeAddr a b s).1 (storeAddr a b s).2 = some (s.reg c) ∧
        OnlyWord (storeAddr a b s).1 (storeAddr a b s).2 s t) ∧
    (s.reg a ≠ 0#32 → s.pageSize (s.reg a) = none → FaultsWith (.invalidPage (s.reg a)) (.st a b c) s) ∧
    (∀ n, s.pageSize (s.reg a) = some n → n ≤ s.reg b → FaultsWith (.memory (s.reg a) (s.reg b)) (.st a b c) s)

/-- spec/20_memory.md section 4: a load after a store reads the stored word at the stored address, and at every
other address the word that was there. -/
def Obligations.LoadAfterStoreReadsTheLastWord : Prop :=
  ∀ (a b c d e f : Reg) (s : State), (s.wordAt (storeAddr a b s).1 (storeAddr a b s).2).isSome = true →
    ∃ t, exec (.st a b c) s = .next t ∧
      (loadAddr e f t = storeAddr a b s → ∃ u, exec (.ld d e f) t = .next u ∧ u.reg d = s.reg c) ∧
      (∀ v, loadAddr e f t ≠ storeAddr a b s → s.wordAt (loadAddr e f t).1 (loadAddr e f t).2 = some v →
        ∃ u, exec (.ld d e f) t = .next u ∧ u.reg d = v)

/-- spec/20_memory.md section 4 with its decision D3: a word stored into page 0 is what the next fetch of its
index runs, and the instruction that stores is the one already fetched. -/
def Obligations.TheNextFetchSeesAStore : Prop :=
  ∀ (a b c : Reg) (s : State), nextInstr s = some (.st a b c) → s.reg a = 0#32 →
    (s.wordAt 0#32 (s.reg b)).isSome = true →
    ∃ t, step s = .next t ∧ t.wordAt 0#32 (s.reg b) = some (s.reg c) ∧
      (∀ k, k ≠ s.reg b → t.wordAt 0#32 k = s.wordAt 0#32 k) ∧
      (s.reg b = s.pc + 1#32 → step t = exec (decode (s.reg c)) { t with pc := t.pc + 1#32 })

/-! ### The page allocator -/

/-- spec/42_page_alloc.md, the rules of opcode 8 and of NewId (decisions D6, D7): where the host can allocate and
an identifier is left, the most recently freed identifier, else the next fresh one, and a zero-filled page. -/
def Obligations.AllocGivesAZeroFilledPage : Prop :=
  HasOpcode 8 (fun w => .alloc (fieldB w) (fieldC w)) ∧
  ∀ (b c : Reg) (s : State), hostCanAllocate s (s.reg c) = true →
    (∀ id rest, s.freeList = id :: rest →
      ∃ t, exec (.alloc b c) s = .next t ∧ t.reg b = id ∧ t.freeList = rest ∧ t.nextId = s.nextId ∧
        AllocFrame b (s.reg c) s t) ∧
    (s.freeList = [] → s.nextId < 2 ^ 32 →
      ∃ t, exec (.alloc b c) s = .next t ∧ (t.reg b).toNat = s.nextId ∧ t.freeList = [] ∧
        t.nextId = s.nextId + 1 ∧ AllocFrame b (s.reg c) s t)

/-- spec/42_page_alloc.md, the rules of opcode 8 and of NewId (decisions D6, D7): the two OutOfMemory cases. -/
def Obligations.AllocFaultsWhenMemoryIsOut : Prop :=
  ∀ (b c : Reg) (s : State),
    (hostCanAllocate s (s.reg c) = false → FaultsWith (.outOfMemory (s.reg c)) (.alloc b c) s) ∧
    (s.freeList = [] → s.nextId = 2 ^ 32 → FaultsWith (.outOfMemory (s.reg c)) (.alloc b c) s)

/-- Decision D6 and log entry 4, about the model's own field: for one state and one opcode 8, either ANSWER of a host's
predicate is given by some value of the field, with the outcome the rule has for it. The value is picked for that one
answer; that one value gives a whole predicate is not said. Apart from that, no step changes the field. -/
def Obligations.HostGrantsCoverEveryAnswer : Prop :=
  (∀ (can : State → Word → Bool) (b c : Reg) (s : State),
    ∃ g t, exec (.alloc b c) { s with hostGrants := g } = .next t ∧
      { t with hostGrants := s.hostGrants } =
        match allocateWith (can s (s.reg c)) (s.reg c) s with
        | .ok (id, u) => u.setReg b id
        | .error e => { s with status := .faulted, fault := { cause := e, fpc := s.pc - 1#32 } }) ∧
  ∀ s t : State, step s = .next t → t.hostGrants = s.hostGrants

/-- spec/42_page_alloc.md R153, with the later uses of a freed identifier its corner cases name. -/
def Obligations.FreeDropsThePageOrFaults : Prop :=
  HasOpcode 9 (fun w => .free (fieldC w)) ∧
  ∀ (c : Reg) (s : State),
    (s.reg c ≠ 0#32 → s.pageSize (s.reg c) ≠ none →
      ∃ t, exec (.free c) s = .next t ∧ t.pageSize (s.reg c) = none ∧ SameOtherPages (s.reg c) s t ∧
        t = { s with pages := t.pages, freeList := s.reg c :: s.freeList } ∧
        ∀ x y z : Reg, t.reg x = s.reg c →
          FaultsWith (.invalidPage (s.reg c)) (.ld y x z) t ∧ FaultsWith (.invalidPage (s.reg c)) (.st x y z) t ∧
          FaultsWith (.invalidPage (s.reg c)) (.free x) t ∧
          FaultsWith (.invalidPage (s.reg c)) (.loadprog x y) t) ∧
    (s.reg c = 0#32 → FaultsWith (.invalidPage 0#32) (.free c) s) ∧
    (s.pageSize (s.reg c) = none → FaultsWith (.invalidPage (s.reg c)) (.free c) s)

/-- spec/42_page_alloc.md, the laws of the allocator, (a) and (b): identifiers are reused last-freed first, by
allocations the host can give (decision D6). -/
def Obligations.FreedIdentifiersAreReusedLastInFirstOut : Prop :=
  (∀ (b c d : Reg) (s : State), s.reg c ≠ 0#32 → s.pageSize (s.reg c) ≠ none →
    ∃ t, exec (.free c) s = .next t ∧
      (hostCanAllocate t (t.reg d) = true →
        ∃ u, exec (.alloc b d) t = .next u ∧ u.reg b = s.reg c ∧ u.freeList = s.freeList ∧ u.nextId = s.nextId)) ∧
  (∀ (b₁ b₂ c₁ c₂ d₁ d₂ : Reg) (s : State),
    s.reg c₁ ≠ 0#32 → s.reg c₂ ≠ 0#32 → s.reg c₁ ≠ s.reg c₂ →
    s.pageSize (s.reg c₁) ≠ none → s.pageSize (s.reg c₂) ≠ none →
    ∃ t₁ t₂, exec (.free c₁) s = .next t₁ ∧ exec (.free c₂) t₁ = .next t₂ ∧
      (hostCanAllocate t₂ (t₂.reg d₁) = true →
        ∃ u₁, exec (.alloc b₁ d₁) t₂ = .next u₁ ∧ u₁.reg b₁ = s.reg c₂ ∧
          (hostCanAllocate u₁ (u₁.reg d₂) = true →
            ∃ u₂, exec (.alloc b₂ d₂) u₁ = .next u₂ ∧ u₂.reg b₂ = s.reg c₁)))

/-- spec/42_page_alloc.md, the laws of the allocator, (d) and (e) (decision D7): an allocation never returns 0 or an
identifier in use, and with nothing freed it returns the counter. -/
def Obligations.AllocReturnsAnUnusedIdentifier : Prop :=
  ∀ (b c : Reg) (s : State), s.Inv → hostCanAllocate s (s.reg c) = true → (s.freeList ≠ [] ∨ s.nextId < 2 ^ 32) →
    ∃ t, exec (.alloc b c) s = .next t ∧ t.reg b ≠ 0#32 ∧ s.pageSize (t.reg b) = none ∧
      t.pageSize (t.reg b) = some (s.reg c) ∧ (s.freeList = [] → (t.reg b).toNat = s.nextId)

/-- spec/42_page_alloc.md, the laws of the allocator, (c): a page that is absent stays absent until an allocation
hands its identifier out, the most recently freed one or a fresh one. -/
def Obligations.AbsentPagesReturnOnlyByAllocation : Prop :=
  ∀ (id : Word) (s t : State), id ≠ 0#32 → s.pageSize id = none → step s = .next t → t.pageSize id ≠ none →
    ∃ b c, nextInstr s = some (.alloc b c) ∧ t.reg b = id ∧ t.pageSize id = some (s.reg c) ∧
      (s.freeList.head? = some id ∨ (s.freeList = [] ∧ id = BitVec.ofNat 32 s.nextId))

/-- spec/10_state.md section 4 (decision D7): the fresh-identifier counter goes up by one, only when an allocation takes a
fresh identifier, and never down. -/
def Obligations.TheCounterOnlyCountsFreshIdentifiers : Prop :=
  ∀ s t : State, step s = .next t →
    t.nextId = s.nextId ∨
      (t.nextId = s.nextId + 1 ∧ s.freeList = [] ∧ ∃ b c, nextInstr s = some (.alloc b c))

/-! ### Control -/

/-- spec/43_control.md R171. -/
def Obligations.HaltEndsTheRun : Prop :=
  HasOpcode 7 (fun _ => .halt) ∧
  (∀ s : State, exec .halt s = .next { s with status := .halted } ∧
    (nextInstr s = some .halt →
      ∃ t, step s = .next t ∧ t = { s with pc := s.pc + 1#32, status := .halted } ∧ step t = .fault .runHalted)) ∧
  ∀ s t : State, step s = .next t → t.status = .halted → nextInstr s = some .halt

/-- spec/43_control.md R172. -/
def Obligations.LoadprogReplacesTheImageAndJumps : Prop :=
  HasOpcode 12 (fun w => .loadprog (fieldB w) (fieldC w)) ∧
  ∀ (b c : Reg) (s : State),
    (s.reg b = 0#32 → exec (.loadprog b c) s = .next { s with pc := s.reg c }) ∧
    (s.reg b ≠ 0#32 → ∀ n, s.pageSize (s.reg b) = some n →
      ∃ t, exec (.loadprog b c) s = .next t ∧
        t.pageSize 0#32 = some n ∧ (∀ k, t.wordAt 0#32 k = s.wordAt (s.reg b) k) ∧ SameOtherPages 0#32 s t ∧
        t = { s with pages := t.pages, imageVer := s.imageVer + 1, pc := s.reg c } ∧
        (s.status = .running → s.abortReq = false → n ≤ s.reg c →
          step t = .next { t with status := .faulted,
                                  fault := { cause := .memory 0#32 (s.reg c), fpc := s.reg c } })) ∧
    (s.reg b ≠ 0#32 → s.pageSize (s.reg b) = none → FaultsWith (.invalidPage (s.reg b)) (.loadprog b c) s)

/-- spec/20_memory.md R61. -/
def Obligations.ReplacementIsACopy : Prop :=
  ∀ (b c : Reg) (s t : State) (n : Word), s.reg b ≠ 0#32 → s.pageSize (s.reg b) = some n →
    exec (.loadprog b c) s = .next t →
    t.pageSize 0#32 = some n ∧ (∀ k, t.wordAt 0#32 k = s.wordAt (s.reg b) k) ∧ (∀ k, n ≤ k → t.wordAt 0#32 k = none) ∧
    t.pageSize (s.reg b) = some n ∧ (∀ k, t.wordAt (s.reg b) k = s.wordAt (s.reg b) k) ∧
    ∀ (x y z : Reg) (u : State), exec (.st x y z) t = .next u →
      (t.reg x = 0#32 → ∀ k, u.wordAt (s.reg b) k = t.wordAt (s.reg b) k) ∧
      (t.reg x = s.reg b → ∀ k, u.wordAt 0#32 k = t.wordAt 0#32 k)

/-- spec/43_control.md R174. -/
def Obligations.UnknownOpcodesOnlyAdvance : Prop :=
  HasOpcode 14 (fun _ => .unk14) ∧ HasOpcode 15 (fun _ => .unk15) ∧
  (∀ s : State, exec .unk14 s = .next s ∧ exec .unk15 s = .next s) ∧
  ∀ (s : State) (w : Word), s.status = .running → s.abortReq = false → s.wordAt 0#32 s.pc = some w →
    (w.toNat / 2 ^ 28 = 14 ∨ w.toNat / 2 ^ 28 = 15) → step s = .next { s with pc := s.pc + 1#32 }

/-! ### Output and input -/

/-- spec/44_io.md, the rule of opcode 10 with its decision D4. -/
def Obligations.OutEmitsOneByteOrFaults : Prop :=
  HasOpcode 10 (fun w => .out (fieldC w)) ∧
  ∀ (c : Reg) (s : State),
    ((s.reg c).toNat ≤ 255 → exec (.out c) s = .next { s with out := s.out ++ [BitVec.ofNat 8 (s.reg c).toNat] }) ∧
    (255 < (s.reg c).toNat → FaultsWith (.outputRange (s.reg c)) (.out c) s)

/-- spec/44_io.md, the rule of opcode 11 with its decisions D5 and D9: after end-of-stream it completes with the
sentinel and asks nobody; before, it begins the input wait (log entry 8). -/
def Obligations.InReadsTheSentinelOrWaits : Prop :=
  HasOpcode 11 (fun w => .inp (fieldC w)) ∧
  ∀ (c : Reg) (s : State),
    (s.inEOF = true → ∃ t, exec (.inp c) s = .next t ∧ t.reg c = 0xFFFFFFFF#32 ∧ OnlyReg c s t) ∧
    (s.inEOF = false → exec (.inp c) s = .next { s with status := .waitInput c })

/-- spec/44_io.md, the input handshake with its decision D9: the host's answer completes the waiting opcode 11 in
one step; with no answer nothing changes (log entries 5, 7, 8, 9). -/
def Obligations.TheHostsAnswerCompletesIn : Prop :=
  ∀ (c : Reg) (s : State), s.status = .waitInput c → s.abortReq = false →
    (s.hostInput = [] → step s = .next s) ∧
    (∀ b rest, s.hostInput = .byte b :: rest →
      ∃ t, step s = .next t ∧ (t.reg c).toNat = b.toNat ∧ (∀ r, r ≠ c → t.reg r = s.reg r) ∧
        t = { s with regs := t.regs, status := .running, hostInput := rest }) ∧
    (∀ rest, s.hostInput = .eof :: rest →
      ∃ t, step s = .next t ∧ t.reg c = 0xFFFFFFFF#32 ∧ (∀ r, r ≠ c → t.reg r = s.reg r) ∧
        t = { s with regs := t.regs, status := .running, hostInput := rest, inEOF := true })

/-- spec/44_io.md, the rule of opcode 11 with its decision D5: end-of-stream persists, and after it no opcode 11
waits. -/
def Obligations.EndOfStreamPersists : Prop :=
  ∀ s t : State, step s = .next t → s.inEOF = true →
    t.inEOF = true ∧ (s.status = .running → ∀ c, t.status ≠ .waitInput c)

/-- spec/44_io.md R193: step by step, and after any prefix of a run of a loaded image, whatever the host does. -/
def Obligations.OutputIsTheBytesEmittedInOrder : Prop :=
  (∀ s t : State, step s = .next t → t.out = s.out ++ emittedNext s) ∧
  (∀ (file : List Byte) (s t : State) (bs : List Byte),
    State.load file = some s → RunEmitting s bs t → t.out = bs)

/-! ### Faults and the host -/

/-- spec/60_exceptions.md sections 1 and 3, the table of the faults an instruction raises and the order of its
checks (decisions D4, D6, D7): where the table names a fault the instruction takes it, and elsewhere it takes none.
An ArithmeticFault records the dividend and the divisor, which is the model's choice (log entry 17). -/
def Obligations.FaultsAreThoseOfTheTable : Prop :=
  ∀ (i : Instr) (s : State), s.Inv →
    (∀ c, faultOf i s = some c → FaultsWith c i s ∧ 1 ≤ c.code ∧ c.code ≤ 5) ∧
    (s.status = .running → faultOf i s = none → ∃ t, exec i s = .next t ∧ t.status ≠ .faulted)

/-- spec/60_exceptions.md section 2 (decision D14): a step that faults changes the status, the fault record and
the pc alone, records the pc of the faulting word, and leaves the pc there for a fetch fault and one beyond
otherwise. -/
def Obligations.FaultsArePrecise : Prop :=
  ∀ s t : State, step s = .next t → t.status = .faulted →
    t = { s with pc := t.pc, status := .faulted, fault := t.fault } ∧ t.fault.fpc = s.pc ∧
      t.fault.cause ≠ .noFault ∧
      ((s.wordAt 0#32 s.pc = none ∧ t.pc = s.pc ∧ t.fault.cause = .memory 0#32 s.pc) ∨
        ((s.wordAt 0#32 s.pc).isSome = true ∧ t.pc = s.pc + 1#32))

/-- spec/60_exceptions.md section 4 (decision D18) and log entry 6: the abort is taken between steps and during
the input wait, and changes nothing but the status. -/
def Obligations.TheAbortIsTakenBetweenSteps : Prop :=
  ∀ s : State, s.abortReq = true → s.status.over = false →
    step s = .next { s with status := .aborted, abortReq := false }

/-! ### Whole-machine rules -/

/-- spec/10_state.md section 1, the list of the instructions that write a register: a step changes no register but
the one the executed instruction's field names, or the one the ending input wait names. -/
def Obligations.OnlyTheNamedRegisterChanges : Prop :=
  ∀ (s t : State) (r : Reg), step s = .next t → t.reg r ≠ s.reg r →
    (∃ i, nextInstr s = some i ∧ destReg i = some r ∧ ∀ a b c, i = .cmov a b c → s.reg c ≠ 0#32) ∨
      s.status = .waitInput r

/-- spec/10_state.md section 2 (decision D21): every executed instruction but a completed opcode 12 leaves the pc
one beyond its own index, a fault of its own included. -/
def Obligations.ThePcAdvancesUnlessOpcode12 : Prop :=
  ∀ (s t : State) (i : Instr), nextInstr s = some i → step s = .next t →
    t.pc = s.pc + 1#32 ∨ ∃ b c, i = .loadprog b c ∧ t.pc = s.reg c ∧ t.status = .running

/-- spec/10_state.md section 7 (decision D11): the image version counts the replacements and nothing else. It goes up by
one at every step that replaces the image, and every other step leaves it. -/
def Obligations.TheImageVersionCountsReplacements : Prop :=
  ∀ s t : State, step s = .next t →
    (∀ b c, nextInstr s = some (.loadprog b c) → s.reg b ≠ 0#32 → s.pageSize (s.reg b) ≠ none →
      t.imageVer = s.imageVer + 1) ∧
    ((¬ ∃ b c, nextInstr s = some (.loadprog b c) ∧ s.reg b ≠ 0#32 ∧ s.pageSize (s.reg b) ≠ none) →
      t.imageVer = s.imageVer)

/-- spec/20_memory.md sections 1 and 3: memory changes by opcodes 2, 8, 9 and 12 alone, and page 0 by an opcode 2
with x[A] = 0 and an opcode 12 with x[B] ≠ 0 alone. -/
def Obligations.MemoryChangesOnlyByItsInstructions : Prop :=
  ∀ s t : State, s.Inv → step s = .next t →
    (t.pages ≠ s.pages →
      (∃ a b c, nextInstr s = some (.st a b c)) ∨ (∃ b c, nextInstr s = some (.alloc b c)) ∨
      (∃ c, nextInstr s = some (.free c)) ∨ ∃ b c, nextInstr s = some (.loadprog b c)) ∧
    (t.page 0#32 ≠ s.page 0#32 →
      (∃ a b c, nextInstr s = some (.st a b c) ∧ s.reg a = 0#32) ∨
      ∃ b c, nextInstr s = some (.loadprog b c) ∧ s.reg b ≠ 0#32)

/-- spec/10_state.md section 4, and log entry 1: from every state that meets them, a step keeps the invariants of
the allocator and the canonical form of the memory. -/
def Obligations.EveryStepKeepsTheInvariant : Prop :=
  ∀ s t : State, s.Inv → step s = .next t → t.Inv

/-- spec/10_state.md section 4: the invariants hold in every state a run from a loaded image reaches, whatever the
host answers, denies or aborts. -/
def Obligations.EveryRunOfALoadedImageKeepsTheInvariant : Prop :=
  ∀ (file : List Byte) (s t : State), State.load file = some s → Reach s t → t.Inv

/-- spec/10_state.md section 7: no program can observe the image version or the fault record. Two states that
differ in nothing else stay so for any number of steps, and stop alike. It rests on the model's choice (log entry 4) that
a host's predicate is asked about the state without these two; D6's predicate is one of the whole state. -/
def Obligations.ImageVersionAndFaultRecordAreInvisible : Prop :=
  ∀ (k : Nat) (s t : State), SameVisible s t →
    (∀ s', runSteps k s = .next s' → ∃ t', runSteps k t = .next t' ∧ SameVisible s' t') ∧
    (∀ f, runSteps k s = .fault f → runSteps k t = .fault f)

/-- spec/30_encoding.md section 5 (decision D13): the effect of each pseudo-instruction's expansion, and the words
it is assembled to. -/
def Obligations.PseudoInstructionsDoAsDescribed : Prop :=
  (∀ s : State, runList (AsmLine.expand .nop) s = some { s with pc := s.pc + 1#32 }) ∧
  (∀ (a b : Reg) (s : State), ∃ t, runList (AsmLine.expand (.not a b)) s = some t ∧ t.reg a = ~~~(s.reg b) ∧
    (∀ r, r ≠ a → t.reg r = s.reg r) ∧ t = { s with regs := t.regs, pc := s.pc + 1#32 }) ∧
  (∀ (a b c : Reg) (s : State), ∃ t, runList (AsmLine.expand (.and a b c)) s = some t ∧
    t.reg a = (s.reg b &&& s.reg c) ∧ (∀ r, r ≠ a → t.reg r = s.reg r) ∧
    t = { s with regs := t.regs, pc := s.pc + 1#32 + 1#32 }) ∧
  (∀ (a b z : Reg) (s : State), s.reg z = 0#32 → ∃ t, runList (AsmLine.expand (.mov a b z)) s = some t ∧
    t.reg a = s.reg b ∧ (∀ r, r ≠ a → t.reg r = s.reg r) ∧ t = { s with regs := t.regs, pc := s.pc + 1#32 }) ∧
  (∀ (z c : Reg) (s : State), s.reg z = 0#32 →
    runList (AsmLine.expand (.jmp z c)) s = some { s with pc := s.reg c }) ∧
  (∀ l : AsmLine, (∀ i, l = .instr i → i.wf = true) → l.assemble.map decode = l.expand)
end

