-- ==== Sys2Proof/Laws/Decode.lean ====
section
/-! SUPPORT. The fields of a word as arithmetic, and the encoder's words as numbers. -/

namespace Sys2Proof

/-- A field as quotient and remainder (R7). -/
theorem field_eq (w : Word) (hi lo : Nat) : field w hi lo = w.toNat / 2 ^ lo % 2 ^ (hi - lo + 1) := by
  simp [field, BitVec.extractLsb, BitVec.extractLsb'_toNat, Nat.shiftRight_eq_div_pow]

theorem opField_eq (w : Word) : opField w = w.toNat / 2 ^ 28 := by
  have := w.isLt
  simp only [opField, field_eq]
  omega

theorem regField_val (w : Word) (lo : Nat) : (regField w lo).val = w.toNat / 2 ^ lo % 8 := by
  simp [regField, field_eq, Fin.ofNat]

theorem fieldA_val (w : Word) : (fieldA w).val = w.toNat / 64 % 8 := regField_val w 6
theorem fieldB_val (w : Word) : (fieldB w).val = w.toNat / 8 % 8 := regField_val w 3
theorem fieldC_val (w : Word) : (fieldC w).val = w.toNat % 8 := by simpa [fieldC] using regField_val w 0
theorem fieldAi_val (w : Word) : (fieldAi w).val = w.toNat / 2 ^ 25 % 8 := regField_val w 25

theorem fieldImm_toNat (w : Word) : (fieldImm w).toNat = w.toNat % 2 ^ 25 := by
  simp [fieldImm, field_eq]; omega

/-- A shifted field below and a larger one above do not overlap. -/
theorem or_eq_add (x y k : Nat) (h : y < 2 ^ k) : x * 2 ^ k ||| y = x * 2 ^ k + y := by
  rw [← Nat.shiftLeft_eq, Nat.shiftLeft_add_eq_or_of_lt h]

/-- The three-operand word as a number (R88). -/
theorem encode3_toNat (op : Nat) (a b c : Reg) (h : op < 16) :
    (encode3 op a b c).toNat = op * 2 ^ 28 + a.val * 64 + b.val * 8 + c.val := by
  obtain ⟨a, ha⟩ := a; obtain ⟨b, hb⟩ := b; obtain ⟨c, hc⟩ := c
  have e1 := or_eq_add op (a * 2 ^ 6) 28 (by omega)
  have e2 := or_eq_add (op * 2 ^ 22 + a) (b * 2 ^ 3) 6 (by omega)
  have e3 := or_eq_add (op * 2 ^ 25 + a * 2 ^ 3 + b) c 3 (by omega)
  simp only [encode3, BitVec.toNat_or, BitVec.toNat_shiftLeft, BitVec.toNat_ofNat, Nat.shiftLeft_eq]
  rw [Nat.mod_eq_of_lt (show op < 2 ^ 32 by omega), Nat.mod_eq_of_lt (show a < 2 ^ 32 by omega),
    Nat.mod_eq_of_lt (show b < 2 ^ 32 by omega), Nat.mod_eq_of_lt (show c < 2 ^ 32 by omega),
    Nat.mod_eq_of_lt (show op * 2 ^ 28 < 2 ^ 32 by omega), Nat.mod_eq_of_lt (show a * 2 ^ 6 < 2 ^ 32 by omega),
    Nat.mod_eq_of_lt (show b * 2 ^ 3 < 2 ^ 32 by omega), e1,
    show op * 2 ^ 28 + a * 2 ^ 6 = (op * 2 ^ 22 + a) * 2 ^ 6 by omega, e2,
    show (op * 2 ^ 22 + a) * 2 ^ 6 + b * 2 ^ 3 = (op * 2 ^ 25 + a * 2 ^ 3 + b) * 2 ^ 3 by omega, e3]
  omega

/-- The immediate word as a number (R88). -/
theorem encodeImm_toNat (ai : Reg) (imm : Word) :
    (encodeImm ai imm).toNat = 13 * 2 ^ 28 + ai.val * 2 ^ 25 + imm.toNat % 2 ^ 25 := by
  obtain ⟨a, ha⟩ := ai
  have hm : imm.toNat &&& 33554431 = imm.toNat % 2 ^ 25 := Nat.and_two_pow_sub_one_eq_mod _ 25
  have e1 := or_eq_add 13 (a * 2 ^ 25) 28 (by omega)
  have e2 := or_eq_add (13 * 2 ^ 3 + a) (imm.toNat % 2 ^ 25) 25 (by omega)
  simp only [encodeImm, BitVec.toNat_or, BitVec.toNat_and, BitVec.toNat_shiftLeft, BitVec.toNat_ofNat, Nat.shiftLeft_eq]
  rw [Nat.mod_eq_of_lt (show a < 2 ^ 32 by omega), Nat.mod_eq_of_lt (show a * 2 ^ 25 < 2 ^ 32 by omega),
    show 13 % 2 ^ 32 * 2 ^ 28 % 2 ^ 32 = 13 * 2 ^ 28 by rfl, show 0x01FFFFFF % 2 ^ 32 = 33554431 by rfl, hm, e1,
    show 13 * 2 ^ 28 + a * 2 ^ 25 = (13 * 2 ^ 3 + a) * 2 ^ 25 by omega, e2]

/-- A word's four bytes, put together again. -/
theorem beWord_toNat (b0 b1 b2 b3 : Byte) :
    (beWord b0 b1 b2 b3).toNat = b0.toNat * 2 ^ 24 + b1.toNat * 2 ^ 16 + b2.toNat * 2 ^ 8 + b3.toNat := by
  have h1 := b1.isLt; have h2 := b2.isLt; have h3 := b3.isLt
  simp only [beWord, BitVec.toNat_append, Nat.shiftLeft_eq]
  rw [or_eq_add _ b1.toNat 8 h1, or_eq_add _ b2.toNat 8 h2, or_eq_add _ b3.toNat 8 h3]
  omega

end Sys2Proof
end

