-- ==== Sys2Proof/Laws/State.lean ====
section
/-! SUPPORT. One lemma per field per update of the state, so that no later proof unfolds a record update. -/

namespace Sys2Proof.Machine

variable (s : State) (r : Reg) (v w : Word) (id : Word) (p : Page) (c : Cause) (b : Byte)

@[simp] theorem setReg_regs : (s.setReg r v).regs = s.regs.set r v := rfl
@[simp] theorem setReg_pc : (s.setReg r v).pc = s.pc := rfl
@[simp] theorem setReg_pages : (s.setReg r v).pages = s.pages := rfl
@[simp] theorem setReg_freeList : (s.setReg r v).freeList = s.freeList := rfl
@[simp] theorem setReg_nextId : (s.setReg r v).nextId = s.nextId := rfl
@[simp] theorem setReg_imageVer : (s.setReg r v).imageVer = s.imageVer := rfl
@[simp] theorem setReg_status : (s.setReg r v).status = s.status := rfl
@[simp] theorem setReg_fault : (s.setReg r v).fault = s.fault := rfl
@[simp] theorem setReg_out : (s.setReg r v).out = s.out := rfl
@[simp] theorem setReg_inEOF : (s.setReg r v).inEOF = s.inEOF := rfl
@[simp] theorem setReg_hostInput : (s.setReg r v).hostInput = s.hostInput := rfl
@[simp] theorem setReg_hostGrants : (s.setReg r v).hostGrants = s.hostGrants := rfl
@[simp] theorem setReg_abortReq : (s.setReg r v).abortReq = s.abortReq := rfl

@[simp] theorem setPc_regs : (s.setPc v).regs = s.regs := rfl
@[simp] theorem setPc_pc : (s.setPc v).pc = v := rfl
@[simp] theorem setPc_pages : (s.setPc v).pages = s.pages := rfl
@[simp] theorem setPc_freeList : (s.setPc v).freeList = s.freeList := rfl
@[simp] theorem setPc_nextId : (s.setPc v).nextId = s.nextId := rfl
@[simp] theorem setPc_imageVer : (s.setPc v).imageVer = s.imageVer := rfl
@[simp] theorem setPc_status : (s.setPc v).status = s.status := rfl
@[simp] theorem setPc_fault : (s.setPc v).fault = s.fault := rfl
@[simp] theorem setPc_out : (s.setPc v).out = s.out := rfl
@[simp] theorem setPc_inEOF : (s.setPc v).inEOF = s.inEOF := rfl
@[simp] theorem setPc_hostInput : (s.setPc v).hostInput = s.hostInput := rfl
@[simp] theorem setPc_hostGrants : (s.setPc v).hostGrants = s.hostGrants := rfl
@[simp] theorem setPc_abortReq : (s.setPc v).abortReq = s.abortReq := rfl

@[simp] theorem setPage_regs : (s.setPage id p).regs = s.regs := rfl
@[simp] theorem setPage_pc : (s.setPage id p).pc = s.pc := rfl
@[simp] theorem setPage_pages : (s.setPage id p).pages = sparseSet id.toNat p s.pages := rfl
@[simp] theorem setPage_freeList : (s.setPage id p).freeList = s.freeList := rfl
@[simp] theorem setPage_nextId : (s.setPage id p).nextId = s.nextId := rfl
@[simp] theorem setPage_imageVer : (s.setPage id p).imageVer = s.imageVer := rfl
@[simp] theorem setPage_status : (s.setPage id p).status = s.status := rfl
@[simp] theorem setPage_fault : (s.setPage id p).fault = s.fault := rfl
@[simp] theorem setPage_out : (s.setPage id p).out = s.out := rfl
@[simp] theorem setPage_inEOF : (s.setPage id p).inEOF = s.inEOF := rfl
@[simp] theorem setPage_hostInput : (s.setPage id p).hostInput = s.hostInput := rfl
@[simp] theorem setPage_hostGrants : (s.setPage id p).hostGrants = s.hostGrants := rfl
@[simp] theorem setPage_abortReq : (s.setPage id p).abortReq = s.abortReq := rfl

@[simp] theorem dropPage_regs : (s.dropPage id).regs = s.regs := rfl
@[simp] theorem dropPage_pc : (s.dropPage id).pc = s.pc := rfl
@[simp] theorem dropPage_pages : (s.dropPage id).pages = sparseDrop id.toNat s.pages := rfl
@[simp] theorem dropPage_freeList : (s.dropPage id).freeList = s.freeList := rfl
@[simp] theorem dropPage_nextId : (s.dropPage id).nextId = s.nextId := rfl
@[simp] theorem dropPage_imageVer : (s.dropPage id).imageVer = s.imageVer := rfl
@[simp] theorem dropPage_status : (s.dropPage id).status = s.status := rfl
@[simp] theorem dropPage_fault : (s.dropPage id).fault = s.fault := rfl
@[simp] theorem dropPage_out : (s.dropPage id).out = s.out := rfl
@[simp] theorem dropPage_inEOF : (s.dropPage id).inEOF = s.inEOF := rfl
@[simp] theorem dropPage_hostInput : (s.dropPage id).hostInput = s.hostInput := rfl
@[simp] theorem dropPage_hostGrants : (s.dropPage id).hostGrants = s.hostGrants := rfl
@[simp] theorem dropPage_abortReq : (s.dropPage id).abortReq = s.abortReq := rfl

@[simp] theorem raiseAt_regs : (raiseAt w c s).regs = s.regs := rfl
@[simp] theorem raiseAt_pc : (raiseAt w c s).pc = s.pc := rfl
@[simp] theorem raiseAt_pages : (raiseAt w c s).pages = s.pages := rfl
@[simp] theorem raiseAt_freeList : (raiseAt w c s).freeList = s.freeList := rfl
@[simp] theorem raiseAt_nextId : (raiseAt w c s).nextId = s.nextId := rfl
@[simp] theorem raiseAt_imageVer : (raiseAt w c s).imageVer = s.imageVer := rfl
@[simp] theorem raiseAt_status : (raiseAt w c s).status = .faulted := rfl
@[simp] theorem raiseAt_fault : (raiseAt w c s).fault = { cause := c, fpc := w } := rfl
@[simp] theorem raiseAt_out : (raiseAt w c s).out = s.out := rfl
@[simp] theorem raiseAt_inEOF : (raiseAt w c s).inEOF = s.inEOF := rfl
@[simp] theorem raiseAt_hostInput : (raiseAt w c s).hostInput = s.hostInput := rfl
@[simp] theorem raiseAt_hostGrants : (raiseAt w c s).hostGrants = s.hostGrants := rfl
@[simp] theorem raiseAt_abortReq : (raiseAt w c s).abortReq = s.abortReq := rfl

@[simp] theorem raise_regs : (raise c s).regs = s.regs := rfl
@[simp] theorem raise_pc : (raise c s).pc = s.pc := rfl
@[simp] theorem raise_pages : (raise c s).pages = s.pages := rfl
@[simp] theorem raise_freeList : (raise c s).freeList = s.freeList := rfl
@[simp] theorem raise_nextId : (raise c s).nextId = s.nextId := rfl
@[simp] theorem raise_imageVer : (raise c s).imageVer = s.imageVer := rfl
@[simp] theorem raise_status : (raise c s).status = .faulted := rfl
@[simp] theorem raise_fault : (raise c s).fault = { cause := c, fpc := s.pc - 1#32 } := rfl
@[simp] theorem raise_out : (raise c s).out = s.out := rfl
@[simp] theorem raise_inEOF : (raise c s).inEOF = s.inEOF := rfl
@[simp] theorem raise_hostInput : (raise c s).hostInput = s.hostInput := rfl
@[simp] theorem raise_hostGrants : (raise c s).hostGrants = s.hostGrants := rfl
@[simp] theorem raise_abortReq : (raise c s).abortReq = s.abortReq := rfl

@[simp] theorem advance_regs : (advance s).regs = s.regs := rfl
@[simp] theorem advance_pc : (advance s).pc = s.pc + 1#32 := rfl
@[simp] theorem advance_pages : (advance s).pages = s.pages := rfl
@[simp] theorem advance_freeList : (advance s).freeList = s.freeList := rfl
@[simp] theorem advance_nextId : (advance s).nextId = s.nextId := rfl
@[simp] theorem advance_imageVer : (advance s).imageVer = s.imageVer := rfl
@[simp] theorem advance_status : (advance s).status = s.status := rfl
@[simp] theorem advance_fault : (advance s).fault = s.fault := rfl
@[simp] theorem advance_out : (advance s).out = s.out := rfl
@[simp] theorem advance_inEOF : (advance s).inEOF = s.inEOF := rfl
@[simp] theorem advance_hostInput : (advance s).hostInput = s.hostInput := rfl
@[simp] theorem advance_hostGrants : (advance s).hostGrants = s.hostGrants := rfl
@[simp] theorem advance_abortReq : (advance s).abortReq = s.abortReq := rfl

@[simp] theorem emit_regs : (emit b s).regs = s.regs := rfl
@[simp] theorem emit_pc : (emit b s).pc = s.pc := rfl
@[simp] theorem emit_pages : (emit b s).pages = s.pages := rfl
@[simp] theorem emit_freeList : (emit b s).freeList = s.freeList := rfl
@[simp] theorem emit_nextId : (emit b s).nextId = s.nextId := rfl
@[simp] theorem emit_imageVer : (emit b s).imageVer = s.imageVer := rfl
@[simp] theorem emit_status : (emit b s).status = s.status := rfl
@[simp] theorem emit_fault : (emit b s).fault = s.fault := rfl
@[simp] theorem emit_out : (emit b s).out = s.out ++ [b] := rfl
@[simp] theorem emit_inEOF : (emit b s).inEOF = s.inEOF := rfl
@[simp] theorem emit_hostInput : (emit b s).hostInput = s.hostInput := rfl
@[simp] theorem emit_hostGrants : (emit b s).hostGrants = s.hostGrants := rfl
@[simp] theorem emit_abortReq : (emit b s).abortReq = s.abortReq := rfl

@[simp] theorem requestInput_regs : (requestInput r s).regs = s.regs := rfl
@[simp] theorem requestInput_pc : (requestInput r s).pc = s.pc := rfl
@[simp] theorem requestInput_pages : (requestInput r s).pages = s.pages := rfl
@[simp] theorem requestInput_freeList : (requestInput r s).freeList = s.freeList := rfl
@[simp] theorem requestInput_nextId : (requestInput r s).nextId = s.nextId := rfl
@[simp] theorem requestInput_imageVer : (requestInput r s).imageVer = s.imageVer := rfl
@[simp] theorem requestInput_status : (requestInput r s).status = .waitInput r := rfl
@[simp] theorem requestInput_fault : (requestInput r s).fault = s.fault := rfl
@[simp] theorem requestInput_out : (requestInput r s).out = s.out := rfl
@[simp] theorem requestInput_inEOF : (requestInput r s).inEOF = s.inEOF := rfl
@[simp] theorem requestInput_hostInput : (requestInput r s).hostInput = s.hostInput := rfl
@[simp] theorem requestInput_hostGrants : (requestInput r s).hostGrants = s.hostGrants := rfl
@[simp] theorem requestInput_abortReq : (requestInput r s).abortReq = s.abortReq := rfl

@[simp] theorem takeAbort_regs : (takeAbort s).regs = s.regs := rfl
@[simp] theorem takeAbort_pc : (takeAbort s).pc = s.pc := rfl
@[simp] theorem takeAbort_pages : (takeAbort s).pages = s.pages := rfl
@[simp] theorem takeAbort_freeList : (takeAbort s).freeList = s.freeList := rfl
@[simp] theorem takeAbort_nextId : (takeAbort s).nextId = s.nextId := rfl
@[simp] theorem takeAbort_imageVer : (takeAbort s).imageVer = s.imageVer := rfl
@[simp] theorem takeAbort_status : (takeAbort s).status = .aborted := rfl
@[simp] theorem takeAbort_fault : (takeAbort s).fault = s.fault := rfl
@[simp] theorem takeAbort_out : (takeAbort s).out = s.out := rfl
@[simp] theorem takeAbort_inEOF : (takeAbort s).inEOF = s.inEOF := rfl
@[simp] theorem takeAbort_hostInput : (takeAbort s).hostInput = s.hostInput := rfl
@[simp] theorem takeAbort_hostGrants : (takeAbort s).hostGrants = s.hostGrants := rfl
@[simp] theorem takeAbort_abortReq : (takeAbort s).abortReq = false := rfl

@[simp] theorem inputByte_regs : (inputByte r b s).regs = s.regs.set r (b.setWidth 32) := rfl
@[simp] theorem inputByte_pc : (inputByte r b s).pc = s.pc := rfl
@[simp] theorem inputByte_pages : (inputByte r b s).pages = s.pages := rfl
@[simp] theorem inputByte_freeList : (inputByte r b s).freeList = s.freeList := rfl
@[simp] theorem inputByte_nextId : (inputByte r b s).nextId = s.nextId := rfl
@[simp] theorem inputByte_imageVer : (inputByte r b s).imageVer = s.imageVer := rfl
@[simp] theorem inputByte_status : (inputByte r b s).status = s.status := rfl
@[simp] theorem inputByte_fault : (inputByte r b s).fault = s.fault := rfl
@[simp] theorem inputByte_out : (inputByte r b s).out = s.out := rfl
@[simp] theorem inputByte_inEOF : (inputByte r b s).inEOF = s.inEOF := rfl
@[simp] theorem inputByte_hostInput : (inputByte r b s).hostInput = s.hostInput := rfl
@[simp] theorem inputByte_hostGrants : (inputByte r b s).hostGrants = s.hostGrants := rfl
@[simp] theorem inputByte_abortReq : (inputByte r b s).abortReq = s.abortReq := rfl

@[simp] theorem inputEof_regs : (inputEof r s).regs = s.regs.set r Config.eofSentinel := rfl
@[simp] theorem inputEof_pc : (inputEof r s).pc = s.pc := rfl
@[simp] theorem inputEof_pages : (inputEof r s).pages = s.pages := rfl
@[simp] theorem inputEof_freeList : (inputEof r s).freeList = s.freeList := rfl
@[simp] theorem inputEof_nextId : (inputEof r s).nextId = s.nextId := rfl
@[simp] theorem inputEof_imageVer : (inputEof r s).imageVer = s.imageVer := rfl
@[simp] theorem inputEof_status : (inputEof r s).status = s.status := rfl
@[simp] theorem inputEof_fault : (inputEof r s).fault = s.fault := rfl
@[simp] theorem inputEof_out : (inputEof r s).out = s.out := rfl
@[simp] theorem inputEof_inEOF : (inputEof r s).inEOF = true := rfl
@[simp] theorem inputEof_hostInput : (inputEof r s).hostInput = s.hostInput := rfl
@[simp] theorem inputEof_hostGrants : (inputEof r s).hostGrants = s.hostGrants := rfl
@[simp] theorem inputEof_abortReq : (inputEof r s).abortReq = s.abortReq := rfl

theorem reg_def : s.reg r = s.regs[r] := rfl

/-- Reading a register after writing one. -/
theorem reg_setReg (q : Reg) : (s.setReg r v).reg q = if r = q then v else s.reg q := by
  simp only [State.reg, State.setReg, Fin.getElem_fin, Vector.getElem_set, Fin.ext_iff]

@[simp] theorem reg_setReg_self : (s.setReg r v).reg r = v := by simp [reg_setReg]

theorem reg_setReg_of_ne {q : Reg} (h : q ≠ r) : (s.setReg r v).reg q = s.reg q := by
  simp [reg_setReg, Ne.symm h]

/-- A register read looks at the register file alone. -/
theorem reg_congr {s t : State} (h : t.regs = s.regs) (q : Reg) : t.reg q = s.reg q := by
  simp [State.reg, h]

/-- A page read looks at the page table alone. -/
theorem page_congr {s t : State} (h : t.pages = s.pages) (j : Word) : t.page j = s.page j := by
  simp [State.page, h]

theorem pageSize_congr {s t : State} (h : t.pages = s.pages) (j : Word) : t.pageSize j = s.pageSize j := by
  simp [State.pageSize, page_congr h]

theorem wordAt_congr {s t : State} (h : t.pages = s.pages) (j k : Word) : t.wordAt j k = s.wordAt j k := by
  simp [State.wordAt, page_congr h]

@[simp] theorem reg_setPc : (s.setPc v).reg r = s.reg r := rfl
@[simp] theorem reg_setPage : (s.setPage id p).reg r = s.reg r := rfl
@[simp] theorem reg_dropPage : (s.dropPage id).reg r = s.reg r := rfl
@[simp] theorem reg_raise : (raise c s).reg r = s.reg r := rfl
@[simp] theorem reg_advance : (advance s).reg r = s.reg r := rfl
@[simp] theorem reg_emit : (emit b s).reg r = s.reg r := rfl
@[simp] theorem page_setReg (j : Word) : (s.setReg r v).page j = s.page j := rfl
@[simp] theorem page_raise (j : Word) : (raise c s).page j = s.page j := rfl
@[simp] theorem page_advance (j : Word) : (advance s).page j = s.page j := rfl

end Sys2Proof.Machine
end

