-- ==== Sys2Proof/Laws/Memory.lean ====
section
/-! SUPPORT. The laws of page memory: a read after a write, a write leaves the rest alone, and every
operation keeps the canonical form. -/

namespace Sys2Proof.Machine

section Sparse
variable {α : Type}

theorem sparseGet_sparseSet (k j : Nat) (v : α) (l : List (Nat × α)) :
    sparseGet j (sparseSet k v l) = if j = k then some v else sparseGet j l := by
  induction l with
  | nil => simp [sparseSet, sparseGet]
  | cons e rest ih =>
    obtain ⟨i, u⟩ := e
    simp only [sparseSet]
    split
    · simp [sparseGet]
    · split
      · subst_vars; by_cases hj : j = i <;> simp [sparseGet, hj]
      · by_cases hj : j = i
        · subst hj; simp [sparseGet]; omega
        · simp [sparseGet, hj, ih]

theorem sparseGet_sparseDrop (k j : Nat) (l : List (Nat × α)) :
    sparseGet j (sparseDrop k l) = if j = k then none else sparseGet j l := by
  induction l with
  | nil => simp [sparseDrop, sparseGet]
  | cons e rest ih =>
    obtain ⟨i, u⟩ := e
    by_cases hi : i = k
    · subst hi
      have : sparseDrop i ((i, u) :: rest) = sparseDrop i rest := by simp [sparseDrop]
      rw [this, ih]
      by_cases hj : j = i <;> simp [sparseGet, hj]
    · have : sparseDrop k ((i, u) :: rest) = (i, u) :: sparseDrop k rest := by simp [sparseDrop, hi]
      rw [this]
      by_cases hj : j = i
      · subst hj; simp [sparseGet, hi]
      · simp [sparseGet, hj, ih]

theorem mem_sparseSet {k : Nat} {v : α} {l : List (Nat × α)} {e : Nat × α} (h : e ∈ sparseSet k v l) :
    e = (k, v) ∨ e ∈ l := by
  induction l with
  | nil => simpa [sparseSet] using h
  | cons f rest ih =>
    obtain ⟨i, u⟩ := f
    simp only [sparseSet] at h
    split at h
    · simpa using h
    · split at h
      · rcases List.mem_cons.mp h with h | h
        · exact .inl h
        · exact .inr (List.mem_cons_of_mem _ h)
      · rcases List.mem_cons.mp h with h | h
        · exact .inr (by simp [h])
        · exact (ih h).imp id (List.mem_cons_of_mem _)

theorem rising_sparseSet {k : Nat} {v : α} {l : List (Nat × α)} (h : Rising l) : Rising (sparseSet k v l) := by
  induction l with
  | nil => simp [sparseSet, Rising]
  | cons f rest ih =>
    obtain ⟨i, u⟩ := f
    obtain ⟨hlt, hrest⟩ := List.pairwise_cons.mp h
    simp only [sparseSet]
    split
    case isTrue hk =>
      refine List.pairwise_cons.mpr ⟨fun e he => ?_, h⟩
      rcases List.mem_cons.mp he with rfl | he
      · exact hk
      · exact lt_trans hk (hlt e he)
    case isFalse hk =>
      split
      case isTrue hi => subst hi; exact List.pairwise_cons.mpr ⟨hlt, hrest⟩
      case isFalse hi =>
        refine List.pairwise_cons.mpr ⟨fun e he => ?_, ih hrest⟩
        rcases mem_sparseSet he with rfl | he
        · simp; omega
        · exact hlt e he

theorem rising_sparseDrop {k : Nat} {l : List (Nat × α)} (h : Rising l) : Rising (sparseDrop k l) :=
  h.filter _

theorem mem_sparseDrop {k : Nat} {l : List (Nat × α)} {e : Nat × α} (h : e ∈ sparseDrop k l) : e ∈ l :=
  (List.mem_filter.mp h).1

theorem mem_of_sparseGet {k : Nat} {v : α} {l : List (Nat × α)} (h : sparseGet k l = some v) : (k, v) ∈ l := by
  induction l with
  | nil => simp [sparseGet] at h
  | cons e rest ih =>
    obtain ⟨i, u⟩ := e
    by_cases hk : k = i
    · subst hk; simp [sparseGet] at h; simp [h]
    · simp [sparseGet, hk] at h; exact List.mem_cons_of_mem _ (ih h)

end Sparse

/-! Pages. -/

@[simp] theorem Page.zeroed_size (n : Word) : (Page.zeroed n).size = n := rfl

@[simp] theorem Page.read_zeroed (n k : Word) : (Page.zeroed n).read k = if k < n then some 0#32 else none := rfl

theorem Page.read_isSome (p : Page) (k : Word) : (p.read k).isSome = decide (k < p.size) := by
  by_cases h : k < p.size <;> simp [Page.read, h]

theorem Page.read_eq_none {p : Page} {k : Word} : p.read k = none ↔ p.size ≤ k := by
  by_cases h : k < p.size
  · simp [Page.read, h]
  · simp [Page.read, h, BitVec.not_lt.mp h]

theorem Page.write_eq_none {p : Page} {k v : Word} : p.write k v = none ↔ p.size ≤ k := by
  by_cases h : k < p.size
  · simp [Page.write, h]
  · simp [Page.write, h, BitVec.not_lt.mp h]

theorem Page.write_size {p q : Page} {k v : Word} (h : p.write k v = some q) : q.size = p.size := by
  unfold Page.write at h
  split at h
  · cases h; rfl
  · cases h

/-- The word written reads back, every other word reads as before (R58). -/
theorem Page.read_write {p q : Page} {k v : Word} (h : p.write k v = some q) (j : Word) :
    q.read j = if j = k then some v else p.read j := by
  unfold Page.write at h
  split at h
  case isFalse => cases h
  case isTrue hk =>
    cases h
    by_cases hj : j = k
    · subst hj
      by_cases hv : v = Config.unlistedWord <;>
        simp [Page.read, hk, hv, sparseGet_sparseDrop, sparseGet_sparseSet]
    · have hn : j.toNat ≠ k.toNat := fun e => hj (BitVec.eq_of_toNat_eq e)
      by_cases hv : v = Config.unlistedWord <;>
        simp [Page.read, hj, hv, hn, sparseGet_sparseDrop, sparseGet_sparseSet]

theorem Page.wf_zeroed (n : Word) : Page.wf (Page.zeroed n) := by
  simp [Page.wf, Page.zeroed, Rising]

theorem Page.wf_write {p q : Page} {k v : Word} (hp : Page.wf p) (h : p.write k v = some q) : Page.wf q := by
  unfold Page.write at h
  split at h
  case isFalse => cases h
  case isTrue hk =>
    cases h
    by_cases hv : v = Config.unlistedWord
    · simp only [hv, if_true]
      exact ⟨rising_sparseDrop hp.1, fun c hc => hp.2 c (mem_sparseDrop hc)⟩
    · simp only [hv, if_false]
      refine ⟨rising_sparseSet hp.1, fun c hc => ?_⟩
      rcases mem_sparseSet hc with rfl | hc
      · exact ⟨by simpa [BitVec.lt_def] using hk, hv⟩
      · exact hp.2 c hc

theorem mem_cellsFrom {n : Nat} {ws : List Word} {c : Nat × Word} (h : c ∈ cellsFrom n ws) :
    n ≤ c.1 ∧ c.1 < n + ws.length ∧ c.2 ≠ Config.unlistedWord := by
  induction ws generalizing n with
  | nil => simp [cellsFrom] at h
  | cons w rest ih =>
    simp only [cellsFrom] at h
    split at h
    · obtain ⟨h1, h2, h3⟩ := ih h
      exact ⟨by omega, by simp only [List.length_cons]; omega, h3⟩
    case isFalse hw =>
      rcases List.mem_cons.mp h with rfl | h
      · simp [hw]
      · obtain ⟨h1, h2, h3⟩ := ih h
        exact ⟨by omega, by simp only [List.length_cons]; omega, h3⟩

theorem rising_cellsFrom (n : Nat) (ws : List Word) : Rising (cellsFrom n ws) := by
  induction ws generalizing n with
  | nil => simp [cellsFrom, Rising]
  | cons w rest ih =>
    simp only [cellsFrom]
    split
    · exact ih _
    · refine List.pairwise_cons.mpr ⟨fun e he => ?_, ih _⟩
      have := (mem_cellsFrom he).1
      simp; omega

theorem sparseGet_cellsFrom (n i : Nat) (ws : List Word) :
    (sparseGet (n + i) (cellsFrom n ws)).getD 0#32 = (ws[i]?).getD 0#32 := by
  induction ws generalizing n i with
  | nil => simp [cellsFrom, sparseGet]
  | cons w rest ih =>
    have none_of_small : ∀ (l : List Word) (m j : Nat), j < m → sparseGet j (cellsFrom m l) = none := by
      intro l m j hj
      cases hg : sparseGet j (cellsFrom m l) with
      | none => rfl
      | some v => have := (mem_cellsFrom (mem_of_sparseGet hg)).1; simp at this; omega
    cases i with
    | zero =>
      by_cases hw : w = Config.unlistedWord
      · simp [cellsFrom, hw, none_of_small]; rfl
      · simp [cellsFrom, hw, sparseGet]
    | succ i =>
      have e : n + (i + 1) = (n + 1) + i := by omega
      have ih' := ih (n + 1) i
      by_cases hw : w = Config.unlistedWord
      · simpa [cellsFrom, hw, e] using ih'
      · have hne : n + 1 + i ≠ n := by omega
        simpa [cellsFrom, hw, sparseGet, e, hne] using ih'

theorem Page.wf_ofWords {ws : List Word} (h : ws.length < 2 ^ 32) : Page.wf (Page.ofWords ws) := by
  refine ⟨rising_cellsFrom 0 ws, fun c hc => ?_⟩
  have := mem_cellsFrom hc
  refine ⟨?_, this.2.2⟩
  simp [Page.ofWords]; omega

/-- The words of a page made from a word sequence. -/
theorem Page.read_ofWords {ws : List Word} (h : ws.length < 2 ^ 32) (i : Nat) (hi : i < ws.length) :
    (Page.ofWords ws).read (BitVec.ofNat 32 i) = some ws[i] := by
  have hi' : i < 2 ^ 32 := lt_trans hi h
  have hlt : BitVec.ofNat 32 i < BitVec.ofNat 32 ws.length := by
    simp [BitVec.lt_def]; omega
  have hmod : (BitVec.ofNat 32 i).toNat = i := by simp; omega
  have := sparseGet_cellsFrom 0 i ws
  simp only [Nat.zero_add, hi, List.getElem?_eq_getElem, Option.getD_some] at this
  simp only [Page.read, Page.ofWords, hlt, if_true, hmod, Config.unlistedWord, this]

/-! The page table. -/

theorem page_setPage (s : State) (id j : Word) (p : Page) :
    (s.setPage id p).page j = if j = id then some p else s.page j := by
  by_cases h : j = id
  · simp [State.page, sparseGet_sparseSet, h]
  · have hn : j.toNat ≠ id.toNat := fun e => h (BitVec.eq_of_toNat_eq e)
    simp [State.page, sparseGet_sparseSet, h, hn]

theorem page_dropPage (s : State) (id j : Word) :
    (s.dropPage id).page j = if j = id then none else s.page j := by
  by_cases h : j = id
  · simp [State.page, sparseGet_sparseDrop, h]
  · have hn : j.toNat ≠ id.toNat := fun e => h (BitVec.eq_of_toNat_eq e)
    simp [State.page, sparseGet_sparseDrop, h, hn]

theorem Memory.wf_setPage {s : State} {id : Word} {p : Page} (h : Memory.wf s.pages) (hp : Page.wf p) :
    Memory.wf (s.setPage id p).pages := by
  refine ⟨rising_sparseSet h.1, fun e he => ?_⟩
  rcases mem_sparseSet he with rfl | he
  · exact ⟨by simpa [Config.idLimit] using id.isLt, hp⟩
  · exact h.2 e he

theorem Memory.wf_dropPage {s : State} {id : Word} (h : Memory.wf s.pages) :
    Memory.wf (s.dropPage id).pages :=
  ⟨rising_sparseDrop h.1, fun e he => h.2 e (mem_sparseDrop he)⟩

theorem Memory.page_wf {s : State} {id : Word} {p : Page} (h : Memory.wf s.pages) (hp : s.page id = some p) :
    Page.wf p := (h.2 _ (mem_of_sparseGet hp)).2

theorem Memory.image_wf {s : State} (h : Memory.wf s.pages) : Page.wf s.image := by
  unfold State.image
  cases hp : s.page 0#32 with
  | none => exact Page.wf_zeroed 0#32
  | some p => exact Memory.page_wf h hp

/-- The reset memory is in canonical form. -/
theorem Memory.wf_reset : Memory.wf State.reset.pages := by decide

/-- A loaded image's memory is in canonical form. -/
theorem Memory.wf_load {file : List Byte} {s : State} (h : State.load file = some s) : Memory.wf s.pages := by
  unfold State.load at h
  split at h
  · split at h
    case isTrue ws _ hl =>
      cases h
      refine ⟨by simp [State.resetWith, Rising], fun e he => ?_⟩
      simp [State.resetWith] at he
      subst he
      exact ⟨by simp [Config.idLimit], Page.wf_ofWords (by simp [Config.maxImageWords] at hl; omega)⟩
    · cases h
  · cases h

end Sys2Proof.Machine
end

