-- ==== Sys2Proof/Laws/Ops.lean ====
section
/-! SUPPORT. One lemma per shared operation that says once what it can do. -/

namespace Sys2Proof.Machine

@[simp] theorem orRaise_ok {α : Type} (s : State) (v : α) (k : α → State) : orRaise s (.ok v) k = k v := rfl
@[simp] theorem orRaise_error {α : Type} (s : State) (c : Cause) (k : α → State) :
    orRaise s (.error c) k = raise c s := rfl

theorem nonZero_iff {v : Word} : nonZero v = true ↔ v ≠ 0#32 := by simp [nonZero]

/-! Presence and bounds. -/

theorem pageSize_eq_some {s : State} {id n : Word} :
    s.pageSize id = some n ↔ ∃ p, s.page id = some p ∧ p.size = n := by simp [State.pageSize]

theorem pageSize_eq_none {s : State} {id : Word} : s.pageSize id = none ↔ s.page id = none := by
  simp [State.pageSize]

theorem wordAt_eq_some {s : State} {id k v : Word} :
    s.wordAt id k = some v ↔ ∃ p, s.page id = some p ∧ p.read k = some v := by
  simp [State.wordAt, Option.bind_eq_some_iff]

/-- A word exists exactly where its page is present and longer than its offset. -/
theorem wordAt_isSome_iff {s : State} {id k : Word} :
    (s.wordAt id k).isSome ↔ ∃ n, s.pageSize id = some n ∧ k < n := by
  cases hp : s.page id <;> simp [State.wordAt, State.pageSize, hp, Page.read_isSome]

theorem image_eq {s : State} {p : Page} (h : s.page 0#32 = some p) : s.image = p := by simp [State.image, h]

theorem getPage_ok_iff {s : State} {id : Word} {p : Page} : getPage s id = .ok p ↔ s.page id = some p := by
  unfold getPage
  cases s.page id <;> simp

theorem getPage_error_iff {s : State} {id : Word} {c : Cause} :
    getPage s id = .error c ↔ s.page id = none ∧ c = .invalidPage id := by
  unfold getPage
  cases s.page id <;> simp [eq_comm]

theorem addressedPage_of_page {s : State} {id : Word} {p : Page} (h : s.page id = some p) :
    addressedPage s id = .ok p := by
  unfold addressedPage
  split
  · subst_vars; rw [image_eq h]
  · exact getPage_ok_iff.mpr h

theorem addressedPage_absent {s : State} {id : Word} (h0 : id ≠ 0#32) (h : s.page id = none) :
    addressedPage s id = .error (.invalidPage id) := by
  simp [addressedPage, h0, getPage_error_iff, h]

/-! The one-word accesses. -/

/-- A load answers exactly the word that is there (R57). -/
theorem pageRead_ok_iff {s : State} {id k v : Word} : pageRead s (id, k) = .ok v ↔ s.wordAt id k = some v := by
  cases hp : s.page id with
  | some p => cases hr : p.read k <;> simp [pageRead, addressedPage_of_page hp, State.wordAt, hp, hr]
  | none =>
    by_cases h0 : id = 0#32
    · subst h0; simp [pageRead, addressedPage, State.image, State.wordAt, hp]
    · simp [pageRead, addressedPage_absent h0 hp, State.wordAt, hp]

theorem pageRead_absent {s : State} {id k : Word} (h0 : id ≠ 0#32) (h : s.pageSize id = none) :
    pageRead s (id, k) = .error (.invalidPage id) := by
  simp [pageRead, addressedPage_absent h0 (pageSize_eq_none.mp h)]

theorem pageRead_outOfRange {s : State} {id k n : Word} (h : s.pageSize id = some n) (hk : n ≤ k) :
    pageRead s (id, k) = .error (.memory id k) := by
  obtain ⟨p, hp, rfl⟩ := pageSize_eq_some.mp h
  simp [pageRead, addressedPage_of_page hp, Page.read_eq_none.mpr hk]

/-- What a failed load or store reports: the identifier, or the identifier and the offset (R131). -/
theorem addressedPage_error {s : State} {id : Word} {c : Cause} (h : addressedPage s id = .error c) :
    c = .invalidPage id := by
  unfold addressedPage at h
  split at h
  · cases h
  · exact (getPage_error_iff.mp h).2

theorem pageRead_error {s : State} {addr : Word × Word} {c : Cause} (h : pageRead s addr = .error c) :
    c = .invalidPage addr.1 ∨ c = .memory addr.1 addr.2 := by
  unfold pageRead at h
  cases ha : addressedPage s addr.1 with
  | error e => rw [ha] at h; cases h; exact .inl (addressedPage_error ha)
  | ok p => cases hr : p.read addr.2 <;> simp [ha, hr] at h; exact .inr h.symm

theorem pageWrite_error {s : State} {addr : Word × Word} {v : Word} {c : Cause}
    (h : pageWrite s addr v = .error c) : c = .invalidPage addr.1 ∨ c = .memory addr.1 addr.2 := by
  unfold pageWrite at h
  cases ha : addressedPage s addr.1 with
  | error e => rw [ha] at h; cases h; exact .inl (addressedPage_error ha)
  | ok p => cases hr : p.write addr.2 v <;> simp [ha, hr] at h; exact .inr h.symm

/-- A store that passes its checks puts one written page back (R58). -/
theorem pageWrite_ok_iff {s t : State} {id k v : Word} :
    pageWrite s (id, k) v = .ok t ↔ ∃ p q, s.page id = some p ∧ p.write k v = some q ∧ t = s.setPage id q := by
  cases hp : s.page id with
  | some p => cases hr : p.write k v <;> simp [pageWrite, addressedPage_of_page hp, hr, eq_comm]
  | none =>
    by_cases h0 : id = 0#32
    · subst h0; simp [pageWrite, addressedPage, State.image, Page.write, hp]
    · simp [pageWrite, addressedPage_absent h0 hp]

theorem pageWrite_absent {s : State} {id k v : Word} (h0 : id ≠ 0#32) (h : s.pageSize id = none) :
    pageWrite s (id, k) v = .error (.invalidPage id) := by
  simp [pageWrite, addressedPage_absent h0 (pageSize_eq_none.mp h)]

theorem pageWrite_outOfRange {s : State} {id k v n : Word} (h : s.pageSize id = some n) (hk : n ≤ k) :
    pageWrite s (id, k) v = .error (.memory id k) := by
  obtain ⟨p, hp, rfl⟩ := pageSize_eq_some.mp h
  simp [pageWrite, addressedPage_of_page hp, Page.write_eq_none.mpr hk]

/-- A store to a word that exists passes its checks. -/
theorem pageWrite_exists {s : State} {id k : Word} (v : Word) (h : (s.wordAt id k).isSome) :
    ∃ t, pageWrite s (id, k) v = .ok t := by
  obtain ⟨n, hn, hk⟩ := wordAt_isSome_iff.mp h
  obtain ⟨p, hp, rfl⟩ := pageSize_eq_some.mp hn
  cases hw : p.write k v with
  | none => rw [Page.write_eq_none] at hw; exact absurd hk (BitVec.not_lt.mpr hw)
  | some q => exact ⟨_, pageWrite_ok_iff.mpr ⟨p, q, hp, hw, rfl⟩⟩

/-- The state with a page put in: every other page reads as before. -/
theorem wordAt_setPage (s : State) (id j k : Word) (p : Page) :
    (s.setPage id p).wordAt j k = if j = id then p.read k else s.wordAt j k := by
  by_cases h : j = id <;> simp [State.wordAt, page_setPage, h]

theorem pageSize_setPage (s : State) (id j : Word) (p : Page) :
    (s.setPage id p).pageSize j = if j = id then some p.size else s.pageSize j := by
  by_cases h : j = id <;> simp [State.pageSize, page_setPage, h]

theorem wordAt_dropPage (s : State) (id j k : Word) :
    (s.dropPage id).wordAt j k = if j = id then none else s.wordAt j k := by
  by_cases h : j = id <;> simp [State.wordAt, page_dropPage, h]

theorem pageSize_dropPage (s : State) (id j : Word) :
    (s.dropPage id).pageSize j = if j = id then none else s.pageSize j := by
  by_cases h : j = id <;> simp [State.pageSize, page_dropPage, h]

/-- Memory after a store: the stored word, and every other word and every length as before (R55, R58). -/
theorem wordAt_pageWrite {s t : State} {id k v : Word} (h : pageWrite s (id, k) v = .ok t) (j o : Word) :
    t.wordAt j o = if (j, o) = (id, k) then some v else s.wordAt j o := by
  obtain ⟨p, q, hp, hw, rfl⟩ := pageWrite_ok_iff.mp h
  rw [wordAt_setPage]
  by_cases hj : j = id
  · subst hj
    by_cases ho : o = k <;> simp [Page.read_write hw, ho, State.wordAt, hp]
  · simp [hj]

/-- A store changes nothing but the page table. -/
theorem pageWrite_ok_frame {s t : State} {addr : Word × Word} {v : Word} (h : pageWrite s addr v = .ok t) :
    t = { s with pages := t.pages } := by
  obtain ⟨p, q, -, -, rfl⟩ := pageWrite_ok_iff.mp h
  rfl

theorem pageSize_pageWrite {s t : State} {id k v : Word} (h : pageWrite s (id, k) v = .ok t) (j : Word) :
    t.pageSize j = s.pageSize j := by
  obtain ⟨p, q, hp, hw, rfl⟩ := pageWrite_ok_iff.mp h
  rw [pageSize_setPage]
  by_cases hj : j = id
  · subst hj; simp [State.pageSize, hp, Page.write_size hw]
  · simp [hj]

theorem Memory.wf_pageWrite {s t : State} {id k v : Word} (hm : Memory.wf s.pages)
    (h : pageWrite s (id, k) v = .ok t) : Memory.wf t.pages := by
  obtain ⟨p, q, hp, hw, rfl⟩ := pageWrite_ok_iff.mp h
  exact Memory.wf_setPage hm (Page.wf_write (Memory.page_wf hm hp) hw)

/-! The allocator. -/

/-- The answer of each kind of host (log entry 4). -/
@[simp] theorem hostCanAllocate_always (s : State) (n : Word) (h : s.hostGrants = .always) :
    hostCanAllocate s n = true := by simp [hostCanAllocate, h]
theorem hostCanAllocate_within {s : State} {n : Word} {sizes pages : Nat} (h : s.hostGrants = .within sizes pages) :
    hostCanAllocate s n = true ↔ n.toNat < sizes ∧ s.pages.length < pages := by simp [hostCanAllocate, h]

/-- The host's predicate sees neither the image version nor the fault record (R32, R34). -/
theorem hostCanAllocate_congr {s t : State} (h : SameVisible s t) (n : Word) :
    hostCanAllocate t n = hostCanAllocate s n := by rw [h]; rfl

/-- `NewId` pops the free list, or counts on (R151). -/
theorem newId_eq_some {s t : State} {id : Word} :
    newId s = some (id, t) ↔
      (s.freeList = id :: t.freeList ∧ t = { s with freeList := t.freeList }) ∨
      (s.freeList = [] ∧ s.nextId < Config.idLimit ∧ id = BitVec.ofNat 32 s.nextId ∧
        t = { s with nextId := s.nextId + 1 }) := by
  unfold newId
  cases hf : s.freeList with
  | nil =>
    by_cases hn : s.nextId < Config.idLimit <;> simp [hn, eq_comm]
  | cons a rest =>
    simp only [Option.some.injEq, Prod.mk.injEq]
    constructor
    · rintro ⟨rfl, rfl⟩; simp
    · rintro (⟨h, ht⟩ | ⟨h, -⟩)
      · cases h; exact ⟨rfl, ht.symm⟩
      · cases h

/-- An allocation that succeeds: a new identifier, and a zero-filled page under it (R150). -/
theorem allocate_ok_iff {s t : State} {size id : Word} :
    allocate size s = .ok (id, t) ↔
      hostCanAllocate s size = true ∧
        ∃ u, newId s = some (id, u) ∧ t = u.setPage id (Page.zeroed size) := by
  unfold allocate allocateWith
  cases hostCanAllocate s size with
  | false => simp
  | true =>
    cases newId s with
    | none => simp
    | some r => obtain ⟨a, u⟩ := r; simp; grind

/-- What a successful allocation can change (R150, R151). -/
theorem allocate_ok_frame {s t : State} {size id : Word} (h : allocate size s = .ok (id, t)) :
    t = { s with pages := t.pages, freeList := t.freeList, nextId := t.nextId } := by
  obtain ⟨-, u, hu, rfl⟩ := allocate_ok_iff.mp h
  obtain ⟨-, hu⟩ | ⟨-, -, -, hu⟩ := newId_eq_some.mp hu <;> rw [hu] <;> rfl

/-- An allocation that fails reports the size (R150, R151). -/
theorem allocate_error_iff {s : State} {size : Word} {c : Cause} :
    allocate size s = .error c ↔
      c = .outOfMemory size ∧ (hostCanAllocate s size = false ∨ newId s = none) := by
  unfold allocate allocateWith
  cases hostCanAllocate s size with
  | false => simp [eq_comm]
  | true =>
    cases newId s with
    | none => simp [eq_comm]
    | some r => simp

theorem newId_eq_none {s : State} : newId s = none ↔ s.freeList = [] ∧ Config.idLimit ≤ s.nextId := by
  unfold newId
  cases s.freeList with
  | nil => by_cases h : s.nextId < Config.idLimit <;> grind
  | cons a rest => simp

/-- A freeing that passes its checks (R153). -/
theorem release_ok_iff {s t : State} {id : Word} :
    release id s = .ok t ↔
      id ≠ 0#32 ∧ s.page id ≠ none ∧ t = { s.dropPage id with freeList := id :: s.freeList } := by
  unfold release getPage
  by_cases h0 : id = 0#32
  · grind
  · cases s.page id <;> grind

theorem release_error_iff {s : State} {id : Word} {c : Cause} :
    release id s = .error c ↔ c = .invalidPage id ∧ (id = 0#32 ∨ s.page id = none) := by
  unfold release getPage
  by_cases h0 : id = 0#32
  · grind
  · cases s.page id <;> grind

/-- The program replacement (R172): nothing for identifier 0, else the page's copy and a new version. -/
theorem replaceImage_ok_iff {s t : State} {id : Word} :
    replaceImage id s = .ok t ↔
      (id = 0#32 ∧ t = s) ∨
      (id ≠ 0#32 ∧ ∃ p, s.page id = some p ∧ t = { s.setPage 0#32 p with imageVer := s.imageVer + 1 }) := by
  unfold replaceImage getPage nonZero
  by_cases h0 : id = 0#32
  · grind
  · cases s.page id <;> grind

theorem replaceImage_error_iff {s : State} {id : Word} {c : Cause} :
    replaceImage id s = .error c ↔ c = .invalidPage id ∧ id ≠ 0#32 ∧ s.page id = none := by
  unfold replaceImage getPage nonZero
  by_cases h0 : id = 0#32
  · grind
  · cases s.page id <;> grind

theorem outByte_ok_iff {v : Word} {b : Byte} : outByte v = .ok b ↔ v.toNat ≤ 255 ∧ b = v.setWidth 8 := by
  unfold outByte
  have hd : 255#32 < v ↔ 255 < v.toNat := by simp [BitVec.lt_def]
  by_cases h : 255#32 < v <;> grind

theorem outByte_error_iff {v : Word} {c : Cause} : outByte v = .error c ↔ 255 < v.toNat ∧ c = .outputRange v := by
  unfold outByte
  have hd : 255#32 < v ↔ 255 < v.toNat := by simp [BitVec.lt_def]
  by_cases h : 255#32 < v <;> grind

theorem aluDiv_ok_iff {x y q : Word} :
    aluDiv x y = .ok q ↔ y ≠ 0#32 ∧ q = BitVec.ofNat 32 (x.toNat / y.toNat) := by
  unfold aluDiv
  by_cases h : y = 0#32 <;> grind

theorem aluDiv_error_iff {x y : Word} {c : Cause} : aluDiv x y = .error c ↔ y = 0#32 ∧ c = .arithmetic x y := by
  unfold aluDiv
  by_cases h : y = 0#32 <;> grind

/-- The fetch reads the word of page 0 at the pc (R170). -/
theorem fetch_eq {s : State} : fetch s = s.wordAt 0#32 s.pc := by
  unfold fetch State.image State.wordAt
  cases s.page 0#32 <;> simp

end Sys2Proof.Machine
end

