-- ==== Sys2Proof/Laws/PerInstr.lean ====
section
/-! SUPPORT. A fact about every instruction as syntax: the opcode bits of its word are those of its row. -/

namespace Sys2Proof.Laws.EncodeMatch

/-- The encoded word has the instruction's opcode in bits[31:28] (R82, R88). -/
def Statement (i : Instr) : Prop := opField (encode i) = i.opcode

theorem of_encode3 (op : Nat) (a b c : Reg) (h : op < 16) : opField (encode3 op a b c) = op := by
  have := a.isLt; have := b.isLt; have := c.isLt
  rw [opField_eq, encode3_toNat op a b c h]; omega

theorem cmov (a b c : Reg) : Statement (.cmov a b c) := of_encode3 0 a b c (by decide)
theorem ld (a b c : Reg) : Statement (.ld a b c) := of_encode3 1 a b c (by decide)
theorem st (a b c : Reg) : Statement (.st a b c) := of_encode3 2 a b c (by decide)
theorem add (a b c : Reg) : Statement (.add a b c) := of_encode3 3 a b c (by decide)
theorem mul (a b c : Reg) : Statement (.mul a b c) := of_encode3 4 a b c (by decide)
theorem div (a b c : Reg) : Statement (.div a b c) := of_encode3 5 a b c (by decide)
theorem nand (a b c : Reg) : Statement (.nand a b c) := of_encode3 6 a b c (by decide)
theorem halt : Statement .halt := of_encode3 7 0 0 0 (by decide)
theorem alloc (b c : Reg) : Statement (.alloc b c) := of_encode3 8 0 b c (by decide)
theorem free (c : Reg) : Statement (.free c) := of_encode3 9 0 0 c (by decide)
theorem out (c : Reg) : Statement (.out c) := of_encode3 10 0 0 c (by decide)
theorem inp (c : Reg) : Statement (.inp c) := of_encode3 11 0 0 c (by decide)
theorem loadprog (b c : Reg) : Statement (.loadprog b c) := of_encode3 12 0 b c (by decide)
theorem li (ai : Reg) (imm : Word) : Statement (.li ai imm) := by
  have := ai.isLt
  simp only [Statement, encode, Instr.opcode, opField_eq, encodeImm_toNat]; omega
theorem unk14 : Statement .unk14 := of_encode3 14 0 0 0 (by decide)
theorem unk15 : Statement .unk15 := of_encode3 15 0 0 0 (by decide)

end Sys2Proof.Laws.EncodeMatch
end

