-- ==== Sys2Proof/Laws/Step.lean ====
section
/-! SUPPORT. What a step can do, said once. -/

namespace Sys2Proof.Machine

/-- Every instruction answers a next state: its own effect, or a fault of the spec as the FAULTED state. -/
theorem exec_next (i : Instr) (s : State) : ∃ t, exec i s = .next t := by cases i <;> exact ⟨_, rfl⟩

/-- The kinds of step that answer a next state: the abort, a fetch fault, an instruction, the input wait. -/
inductive StepKind (s t : State) : Prop where
  | abort (h : s.status.over = false) (ha : s.abortReq = true) (ht : t = takeAbort s)
  | fetchFault (h : s.status = .running) (ha : s.abortReq = false) (hf : s.wordAt 0#32 s.pc = none)
      (ht : t = fetchFault s)
  | instr (w : Word) (h : s.status = .running) (ha : s.abortReq = false) (hf : s.wordAt 0#32 s.pc = some w)
      (ht : exec (decode w) (advance s) = .next t)
  | wait (c : Reg) (h : s.status = .waitInput c) (ha : s.abortReq = false) (ht : t = awaitInput c s)

theorem step_cases {s t : State} (h : Sys2Proof.Machine.step s = .next t) : StepKind s t := by
  unfold step at h
  cases hs : s.status with
  | running =>
    cases ha : s.abortReq with
    | true => simp [hs, ha] at h; exact .abort (by simp [hs, Status.over]) ha h.symm
    | false =>
      simp only [hs, ha, runInstr, fetch_eq] at h
      cases hf : s.wordAt 0#32 s.pc with
      | none => simp [hf] at h; exact .fetchFault hs ha hf h.symm
      | some w => simp [hf] at h; exact .instr w hs ha hf h
  | waitInput c =>
    cases ha : s.abortReq with
    | true => simp [hs, ha] at h; exact .abort (by simp [hs, Status.over]) ha h.symm
    | false => simp [hs, ha] at h; exact .wait c hs ha h.symm
  | halted => simp [hs] at h
  | faulted => simp [hs] at h
  | aborted => simp [hs] at h

/-- What the end of an input wait leaves (R192). -/
theorem awaitInput_cases (c : Reg) (s : State) :
    (s.hostInput = [] ∧ awaitInput c s = s) ∨
    (∃ b rest, s.hostInput = .byte b :: rest ∧
      awaitInput c s = inputByte c b { s with status := .running, hostInput := rest }) ∨
    (∃ rest, s.hostInput = .eof :: rest ∧
      awaitInput c s = inputEof c { s with status := .running, hostInput := rest }) := by
  unfold awaitInput
  cases s.hostInput with
  | nil => exact .inl ⟨rfl, rfl⟩
  | cons r rest => cases r <;> simp

/-- What an instruction can do to the state, one case per kind of effect. Every case but the first says what
the whole next state is. -/
inductive ExecKind (i : Instr) (s t : State) : Prop where
  | fault (c : Cause) (hc : c ≠ .noFault) (ht : t = raise c s)
  | same (hi : (∃ a b c, i = .cmov a b c) ∨ i = .unk14 ∨ i = .unk15) (ht : t = s)
  | reg (r : Reg) (v : Word) (hr : destReg i = some r) (ht : t = s.setReg r v)
  | store (a b c : Reg) (hi : i = .st a b c) (ht : pageWrite s (s.reg a, s.reg b) (s.reg c) = .ok t)
  | halt (hi : i = .halt) (ht : t = { s with status := .halted })
  | alloc (b c : Reg) (id : Word) (u : State) (hi : i = .alloc b c) (hu : allocate (s.reg c) s = .ok (id, u))
      (ht : t = u.setReg b id)
  | free (c : Reg) (hi : i = .free c) (ht : release (s.reg c) s = .ok t)
  | out (c : Reg) (b : Byte) (hi : i = .out c) (hb : outByte (s.reg c) = .ok b) (ht : t = emit b s)
  | request (c : Reg) (hi : i = .inp c) (he : s.inEOF = false) (ht : t = requestInput c s)
  | jump (b c : Reg) (u : State) (hi : i = .loadprog b c) (hu : replaceImage (s.reg b) s = .ok u)
      (ht : t = u.setPc (s.reg c))

theorem exec_cases {i : Instr} {s t : State} (h : exec i s = .next t) : ExecKind i s t := by
  cases i with
  | cmov a b c =>
    simp only [exec, execCmov, Host.Outcome.next.injEq] at h
    split at h
    · exact .reg a _ rfl h.symm
    · exact .same (.inl ⟨a, b, c, rfl⟩) h.symm
  | ld a b c =>
    simp only [exec, execLd, Host.Outcome.next.injEq] at h
    cases hr : pageRead s (loadAddr b c s) with
    | ok v => simp [hr] at h; exact .reg a v rfl h.symm
    | error e => simp [hr] at h; exact .fault e (by rcases pageRead_error hr with rfl | rfl <;> simp) h.symm
  | st a b c =>
    simp only [exec, execSt, Host.Outcome.next.injEq] at h
    cases hr : pageWrite s (storeAddr a b s) (s.reg c) with
    | ok u => simp [hr] at h; subst h; exact .store a b c rfl hr
    | error e => simp [hr] at h; exact .fault e (by rcases pageWrite_error hr with rfl | rfl <;> simp) h.symm
  | div a b c =>
    simp only [exec, execDiv, Host.Outcome.next.injEq] at h
    cases hr : aluDiv (s.reg b) (s.reg c) with
    | ok v => simp [hr] at h; exact .reg a v rfl h.symm
    | error e => simp [hr] at h; exact .fault e (by simp [(aluDiv_error_iff.mp hr).2]) h.symm
  | add a b c | mul a b c | nand a b c => cases h; exact .reg a _ rfl rfl
  | li ai imm => cases h; exact .reg ai imm rfl rfl
  | halt => cases h; exact .halt rfl rfl
  | alloc b c =>
    simp only [exec, execAlloc, Host.Outcome.next.injEq] at h
    cases hr : allocate (s.reg c) s with
    | ok r => simp [hr] at h; exact .alloc b c r.1 r.2 rfl hr h.symm
    | error e => simp [hr] at h; exact .fault e (by simp [(allocate_error_iff.mp hr).1]) h.symm
  | free c =>
    simp only [exec, execFree, Host.Outcome.next.injEq] at h
    cases hr : release (s.reg c) s with
    | ok u => simp [hr] at h; subst h; exact .free c rfl hr
    | error e => simp [hr] at h; exact .fault e (by simp [(release_error_iff.mp hr).1]) h.symm
  | out c =>
    simp only [exec, execOut, Host.Outcome.next.injEq] at h
    cases hr : outByte (s.reg c) with
    | ok b => simp [hr] at h; exact .out c b rfl hr h.symm
    | error e => simp [hr] at h; exact .fault e (by simp [(outByte_error_iff.mp hr).2]) h.symm
  | inp c =>
    simp only [exec, execInp, Host.Outcome.next.injEq] at h
    cases he : s.inEOF with
    | true => simp [he] at h; exact .reg c _ rfl h.symm
    | false => simp [he] at h; exact .request c rfl he h.symm
  | loadprog b c =>
    simp only [exec, execLoadprog, Host.Outcome.next.injEq] at h
    cases hr : replaceImage (s.reg b) s with
    | ok u => simp [hr] at h; exact .jump b c u rfl hr h.symm
    | error e => simp [hr] at h; exact .fault e (by simp [(replaceImage_error_iff.mp hr).1]) h.symm
  | unk14 => cases h; exact .same (.inr (.inl rfl)) rfl
  | unk15 => cases h; exact .same (.inr (.inr rfl)) rfl

end Sys2Proof.Machine
end

