-- ==== Sys2Proof/Tests/Slice0.lean ====
section
/-! SUPPORT. The model's own tests, and for every statement with hypotheses a state that meets them all. The
expected results are those of spec/95_test_vectors.md (V-… and S-… below) or are worked out by hand from the
rule a test names. -/

namespace Sys2Proof.Machine.Tests

/-- A step's or an instruction's next state has a property. -/
def got (o : Host.Outcome State Fault Refusal) (p : State → Bool) : Bool :=
  match o with
  | .next t => p t
  | .fault _ => false
  | .refused _ => false

/-- A state with the given registers set. -/
def withRegs (s : State) (regs : List (Reg × Word)) : State := regs.foldl (fun t e => t.setReg e.1 e.2) s

/-- The reset state whose image is a word and a halt, with the given registers set. -/
def at0 (w : Word) (regs : List (Reg × Word)) : State := withRegs (State.resetWith [w, 0x70000000#32]) regs

/-- The same with a page 1 of the given words and identifier 2 freed. -/
def with1 (w : Word) (page1 : List Word) (regs : List (Reg × Word)) : State :=
  { at0 w regs with
    pages := [(0, Page.ofWords [w, 0x70000000#32]), (1, Page.ofWords page1)], freeList := [2#32], nextId := 3 }

/-- The step faulted with a record, at pc `pc`. -/
def faulted (o : Host.Outcome State Fault Refusal) (c : Cause) (fpc pc : Word) : Bool :=
  got o fun t => t.status == .faulted && t.fault == { cause := c, fpc := fpc } && t.pc == pc

/-! ### Well-formedness: the one check refuses an ill-formed term -/

theorem test_wf_refuses_a_26_bit_immediate : (Instr.li 0 0x02000000#32).wf = false := by decide
theorem test_wf_accepts_the_largest_immediate : (Instr.li 7 0x01FFFFFF#32).wf = true := by decide

/-! ### Decoding: one word per constructor, written out field by field (R80, R81, R88) -/

theorem test_decode_cmov : decode (0b0000#4 ++ 0#19 ++ 0b001#3 ++ 0b010#3 ++ 0b011#3) = .cmov 1 2 3 := by decide
theorem test_decode_ld : decode (0b0001#4 ++ 0#19 ++ 0b101#3 ++ 0b010#3 ++ 0b011#3) = .ld 5 2 3 := by decide
theorem test_decode_st : decode (0b0010#4 ++ 0#19 ++ 0b010#3 ++ 0b011#3 ++ 0b100#3) = .st 2 3 4 := by decide
theorem test_decode_add : decode (0b0011#4 ++ 0x7FFFF#19 ++ 0b001#3 ++ 0b010#3 ++ 0b011#3) = .add 1 2 3 := by decide
theorem test_decode_mul : decode (0b0100#4 ++ 0#19 ++ 0b111#3 ++ 0b000#3 ++ 0b110#3) = .mul 7 0 6 := by decide
theorem test_decode_div : decode (0b0101#4 ++ 0#19 ++ 0b011#3 ++ 0b010#3 ++ 0b011#3) = .div 3 2 3 := by decide
theorem test_decode_nand : decode (0b0110#4 ++ 0#19 ++ 0b001#3 ++ 0b010#3 ++ 0b010#3) = .nand 1 2 2 := by decide
theorem test_decode_halt : decode (0b0111#4 ++ 0xFFFFFFF#28) = .halt := by decide
theorem test_decode_alloc : decode (0b1000#4 ++ 0#19 ++ 0b111#3 ++ 0b010#3 ++ 0b001#3) = .alloc 2 1 := by decide
theorem test_decode_free : decode (0b1001#4 ++ 0#19 ++ 0b111#3 ++ 0b111#3 ++ 0b010#3) = .free 2 := by decide
theorem test_decode_out : decode (0b1010#4 ++ 0#19 ++ 0b000#3 ++ 0b000#3 ++ 0b001#3) = .out 1 := by decide
theorem test_decode_inp : decode (0b1011#4 ++ 0#19 ++ 0b000#3 ++ 0b000#3 ++ 0b111#3) = .inp 7 := by decide
theorem test_decode_loadprog : decode (0b1100#4 ++ 0#19 ++ 0b101#3 ++ 0b001#3 ++ 0b110#3) = .loadprog 1 6 := by decide
theorem test_decode_li : decode (0b1101#4 ++ 0b001#3 ++ 72#25) = .li 1 72#32 := by decide
theorem test_decode_unk14 : decode (0b1110#4 ++ 0#28) = .unk14 := by decide
theorem test_decode_unk15 : decode (0b1111#4 ++ 0x1234567#28) = .unk15 := by decide

/-- The first word of P1's image file, D2 00 00 48 (spec/95_test_vectors.md part 3), and the bytes after it. -/
theorem test_decode_bytes_big_endian :
    (match decodeBytes [0xD2#8, 0#8, 0#8, 0x48#8, 0xD4#8] with
      | .ok r => r == (.li 1 72#32, [0xD4#8])
      | .error _ => false) = true := by decide
theorem test_decode_bytes_refuses_three :
    (match decodeBytes [0xD2#8, 0#8, 0#8] with
      | .ok _ => false
      | .error e => e == .truncated) = true := by decide
theorem test_encode_li : encode (.li 1 72#32) = 0xD2000048#32 := by decide
theorem test_encode_st : encode (.st 2 3 4) = 0x2000009C#32 := by decide
theorem test_text : instrText (.ld 5 2 3) = "ld r5, r2, r3" := by decide
theorem test_assemble_jmp : AsmLine.assemble (.jmp 0 6) = [0xC0000006#32] := by decide

/-! ### One step on a small state -/

/-- V-A3: the condition is the old destination. -/
theorem test_cmov_condition_is_the_destination :
    got (step (at0 0x00000051#32 [(1, 9#32), (2, 5#32)])) (fun t => t.reg 1 == 5#32 && t.pc == 1#32) = true := by decide
/-- V-A2 -/
theorem test_cmov_keeps_on_zero :
    got (step (at0 0x00000053#32 [(1, 9#32), (2, 5#32)])) (fun t => t.reg 1 == 9#32) = true := by decide
/-- V-A4 -/
theorem test_add_wraps :
    got (step (at0 0x30000053#32 [(2, 0xFFFFFFFF#32), (3, 1#32)])) (fun t => t.reg 1 == 0#32) = true := by decide
/-- V-A6 -/
theorem test_add_same_register :
    got (step (at0 0x30000049#32 [(1, 0x80000001#32)])) (fun t => t.reg 1 == 2#32) = true := by decide
/-- V-A8 -/
theorem test_mul_keeps_the_low_half :
    got (step (at0 0x40000053#32 [(2, 0xFFFFFFFF#32), (3, 0xFFFFFFFF#32)])) (fun t => t.reg 1 == 1#32) = true := by decide
/-- V-A16 -/
theorem test_div_replaces_the_divisor :
    got (step (at0 0x500000D3#32 [(2, 15#32), (3, 3#32)])) (fun t => t.reg 3 == 5#32) = true := by decide
/-- Program P8's second step: info = 5, the dividend (R210). -/
theorem test_div_by_zero_info :
    got (step (at0 0x50000088#32 [(1, 5#32)])) (fun t => t.fault.cause.info == [5#32] && t.fault.cause.code == 3) = true := by
  decide
/-- V-A15, with dividend 7 (S4) -/
theorem test_div_by_zero :
    faulted (step (at0 0x50000053#32 [(1, 9#32), (2, 7#32)])) (.arithmetic 7#32 0#32) 0#32 1#32 = true := by decide
/-- V-A19 -/
theorem test_nand :
    got (step (at0 0x60000053#32 [(2, 0xF0F0F0F0#32), (3, 0xFF00FF00#32)])) (fun t => t.reg 1 == 0x0FFF0FFF#32) = true := by
  decide
/-- V-A22 -/
theorem test_li_clears_the_upper_bits :
    got (step (at0 0xDFFFFFFF#32 [(7, 0xFFFFFFFF#32)])) (fun t => t.reg 7 == 0x01FFFFFF#32) = true := by decide
/-- V-L7: the sources are read first. -/
theorem test_ld_reads_sources_first :
    got (step (with1 0x10000092#32 [7#32, 9#32] [(2, 1#32)])) (fun t => t.reg 2 == 9#32) = true := by decide
/-- V-L5: the identifier is checked before the offset. -/
theorem test_ld_checks_the_identifier_first :
    faulted (step (at0 0x10000053#32 [(2, 4#32), (3, 0xFFFFFFFF#32)])) (.invalidPage 4#32) 0#32 1#32 = true := by decide
/-- V-L12 -/
theorem test_st_same_register :
    got (step (with1 0x20000049#32 [5#32, 6#32] [(1, 1#32)]))
      (fun t => t.wordAt 1#32 1#32 == some 1#32 && t.wordAt 1#32 0#32 == some 5#32) = true := by decide
/-- V-L9 -/
theorem test_st_beyond_the_page :
    faulted (step (with1 0x2000009C#32 [0#32, 0#32, 0#32] [(2, 1#32), (3, 3#32)])) (.memory 1#32 3#32) 0#32 1#32 = true := by
  decide
/-- V-PA10: the size is read before the identifier is written. -/
theorem test_alloc_reads_the_size_first :
    got (step (at0 0x80000009#32 [(1, 2#32)]))
      (fun t => t.reg 1 == 1#32 && t.pages.contains (1, Page.zeroed 2#32) && t.nextId == 2) = true := by decide
/-- V-PA8 -/
theorem test_alloc_denied :
    faulted (step { at0 0x80000011#32 [(1, 3#32)] with hostGrants := .within 3 8 }) (.outOfMemory 3#32) 0#32 1#32 = true := by
  decide
/-- The example of R153. -/
theorem test_free_pushes :
    got (step (with1 0x90000002#32 [5#32] [(2, 1#32)]))
      (fun t => t.pageSize 1#32 == none && t.freeList == [1#32, 2#32]) = true := by decide
/-- V-PA4 -/
theorem test_free_page_0 : faulted (step (at0 0x90000000#32 [])) (.invalidPage 0#32) 0#32 1#32 = true := by decide
/-- V-IO3 -/
theorem test_out_255 : got (step (at0 0xA0000001#32 [(1, 0xFF#32)])) (fun t => t.out == [0xFF#8]) = true := by decide
/-- V-IO4 -/
theorem test_out_256 : faulted (step (at0 0xA0000001#32 [(1, 0x100#32)])) (.outputRange 0x100#32) 0#32 1#32 = true := by decide
/-- V-IO5, first half -/
theorem test_in_requests :
    got (step (at0 0xB0000001#32 [])) (fun t => t.status == .waitInput 1 && t.inReq && t.pc == 1#32) = true := by decide
/-- V-IO5, second half -/
theorem test_in_answered :
    got (step { at0 0xB0000001#32 [] with status := .waitInput 1, hostInput := [.byte 0x6F#8, .eof] })
      (fun t => t.status == .running && t.reg 1 == 0x6F#32 && t.hostInput == [.eof]) = true := by decide
/-- V-C6 -/
theorem test_loadprog_absent :
    faulted (step (at0 0xC0000008#32 [(1, 3#32)])) (.invalidPage 3#32) 0#32 1#32 = true := by decide
/-- S8: the old image is gone where the new one is shorter. -/
theorem test_loadprog_discards_the_old_image :
    got (step (with1 0xC0000008#32 [0x70000000#32] [(1, 1#32)]))
      (fun t => t.wordAt 0#32 0#32 == some 0x70000000#32 && t.wordAt 0#32 1#32 == none && t.imageVer == 1 && t.pc == 0#32)
      = true := by decide
/-- V-C7 -/
theorem test_halt : got (step (at0 0x70000000#32 [])) (fun t => t.status == .halted && t.pc == 1#32) = true := by decide
/-- V-C8 -/
theorem test_unk14 : got (step (at0 0xE0000000#32 [])) (fun t => t == advance (at0 0xE0000000#32 [])) = true := by decide
theorem test_unk15 : got (step (at0 0xF1234567#32 [])) (fun t => t == advance (at0 0xF1234567#32 [])) = true := by decide
/-- V-C1: the fetch fault of an empty image. -/
theorem test_fetch_of_an_empty_image : faulted (step State.reset) (.memory 0#32 0#32) 0#32 0#32 = true := by decide
/-- R29, R176: a final state has no step. -/
theorem test_halted_stops :
    (match step { State.reset with status := .halted } with
      | .fault r => r == .runHalted
      | .next _ => false
      | .refused _ => false) = true := by decide
/-- R210: the cause codes. -/
theorem test_cause_codes :
    [Cause.noFault, .memory 0#32 0#32, .invalidPage 0#32, .arithmetic 0#32 0#32, .outOfMemory 0#32, .outputRange 0#32].map Cause.code
      = [0, 1, 2, 3, 4, 5] := by decide
/-- Equal memories are equal data: storing a word and then what an unlisted word reads as leaves no trace. -/
theorem test_memory_is_canonical :
    ((Page.zeroed 4#32).write 2#32 7#32).bind (fun p => p.write 2#32 0#32) = some (Page.zeroed 4#32) := by decide

/-! ### The host's two questions -/

theorem test_decodeTableWord : decodeTableWord 32 0x10000153 = some (.ld 5 2 3) := by decide
theorem test_withFetchWord :
    got (step (State.reset.withFetchWord 32 0xD2000048)) (fun t => t.reg 1 == 72#32 && t.pc == 1#32) = true := by decide

/-! ### Loading -/

/-- A four-byte file is one word, a two-byte file is not loaded (R241). -/
theorem test_load :
    (State.load [0xD2#8, 0#8, 0#8, 0x48#8]).map (fun s => s.wordAt 0#32 0#32) = some (some 0xD2000048#32) := by decide
theorem test_load_refuses : State.load [0xD2#8, 0#8] = none := by decide

/-! ### Every statement's hypotheses can be met: a state for each clause -/

/-- A state of a run: page 1 present, identifier 2 freed, identifiers from 3 on never handed out. -/
def sample : State := with1 0x30000053#32 [0#32, 0#32, 0x41#32] [(1, 1#32), (2, 2#32), (3, 3#32), (5, 0xFFFFFFFF#32)]

theorem sample_inv : sample.Inv where
  image := by decide
  fresh := by
    intro n hn
    have h3 : 3 ≤ n := hn
    simp only [sample, with1, sparseGet]
    rw [if_neg (by omega), if_neg (by omega)]
  distinct := by simp [sample, with1]
  range := by simp [sample, with1]
  freed := by simp [sample, with1, sparseGet]
  live := by
    intro n h1 h2 h3
    have h2' : n < 3 := h2
    have h3' : (2#32).toNat ≠ n := h3 2#32 (by simp [sample, with1])
    obtain rfl : n = 1 := by simp at h3'; omega
    decide
  bound := by decide
  positive := by decide
  memory := by decide

/-- A sequence of a given number of zero bytes, for the bound on the image's length. -/
theorem meets_LoadedImageGivesTheResetState :
    ([0xD2#8, 0#8, 0#8, 0x48#8].length % 4 = 0 ∧ [0xD2#8, 0#8, 0#8, 0x48#8].length / 4 ≤ 2 ^ 32 - 1) ∧
      [0#8, 0#8, 0#8, 0#8, 0#8].length % 4 ≠ 0 ∧ 2 ^ 32 - 1 < (List.replicate (2 ^ 34) (0#8)).length / 4 := by
  simp only [List.length_replicate]; decide
theorem meets_DecodeReadsTheLayoutFields :
    (1 : Reg).val = (0x3FFFFE53#32).toNat / 2 ^ 6 % 2 ^ 3 ∧ (2 : Reg).val = (0x3FFFFE53#32).toNat / 2 ^ 3 % 2 ^ 3 ∧
      (3 : Reg).val = (0x3FFFFE53#32).toNat % 2 ^ 3 ∧ (7 : Reg).val = (0x3FFFFE53#32).toNat / 2 ^ 25 % 2 ^ 3 := by decide
theorem meets_EncodeWritesTheLayoutFields : (Instr.li 7 0x01FFFFFF#32).wf = true ∧ (Instr.st 7 7 7).wf = true := by decide
theorem meets_DecodeOfEncodeIsTheInstruction : (Instr.li 0 0#32).wf = true ∧ (Instr.nand 7 0 7).wf = true := by decide
theorem meets_StepRunsTheDecodedInstruction :
    sample.status = .running ∧ sample.abortReq = false ∧ sample.wordAt 0#32 sample.pc = some 0x30000053#32 := by decide
theorem meets_FetchBeyondTheImageFaults :
    (sample.setPc 2#32).status = .running ∧ (sample.setPc 2#32).abortReq = false ∧
      (sample.setPc 2#32).pageSize 0#32 = some 2#32 ∧ 2#32 ≤ (sample.setPc 2#32).pc := by decide
theorem meets_TheAdvanceNeverWraps : (sample.setPc 1#32).wordAt 0#32 1#32 = some 0x70000000#32 := by decide
theorem meets_StepStopsExactlyWhenTheRunIsOver : sample.status.over = false := by decide
theorem meets_StatusChangesOnlyAsDescribed :
    got (step (at0 0x70000000#32 [])) (fun t => t.status == .halted) = true ∧
      got (step { sample with abortReq := true }) (fun t => t.status == .aborted) = true ∧
      got (step (at0 0xB0000001#32 [])) (fun t => t.status == .waitInput 1) = true ∧
      got (step { sample with status := .waitInput 1 }) (fun t => t.status == .waitInput 1) = true ∧
      got (step { sample with status := .waitInput 1, hostInput := [.eof] }) (fun t => t.status == .running) = true := by
  decide
theorem meets_CmovMovesWhenConditionHolds :
    (0x0FFFFE53#32).toNat / 2 ^ 28 = 0 ∧ sample.reg 3 ≠ 0#32 ∧ sample.reg 0 = 0#32 := by decide
theorem meets_AddWritesTheSumModulo : (0x3FFFFFFF#32).toNat / 2 ^ 28 = 3 := by decide
theorem meets_MulWritesTheProductModulo : (0x40000000#32).toNat / 2 ^ 28 = 4 := by decide
theorem meets_DivWritesTheQuotientOrFaults :
    (0x50000053#32).toNat / 2 ^ 28 = 5 ∧ sample.reg 5 ≠ 0#32 ∧ sample.reg 4 = 0#32 := by decide
theorem meets_NandWritesTheComplementOfTheAnd : (0x60000053#32).toNat / 2 ^ 28 = 6 := by decide
theorem meets_LiWritesTheZeroExtendedImmediate :
    (0xDFFFFFFF#32).toNat / 2 ^ 28 = 13 ∧ (Instr.li 7 0x01FFFFFF#32).wf = true := by decide
theorem meets_LdReadsTheAddressedWordOrFaults :
    (0x10000153#32).toNat / 2 ^ 28 = 1 ∧
      sample.wordAt (loadAddr 1 2 sample).1 (loadAddr 1 2 sample).2 = some 0x41#32 ∧
      (sample.reg 2 ≠ 0#32 ∧ sample.pageSize (sample.reg 2) = none) ∧
      (sample.pageSize (sample.reg 1) = some 3#32 ∧ 3#32 ≤ sample.reg 3) ∧
      (sample.pageSize (sample.reg 0) = some 2#32 ∧ 2#32 ≤ sample.reg 2) := by decide
theorem meets_StWritesTheAddressedWordOrFaults :
    (0x2000009C#32).toNat / 2 ^ 28 = 2 ∧
      (sample.wordAt (storeAddr 1 2 sample).1 (storeAddr 1 2 sample).2).isSome = true ∧
      (sample.wordAt (storeAddr 0 1 sample).1 (storeAddr 0 1 sample).2).isSome = true ∧
      (sample.reg 5 ≠ 0#32 ∧ sample.pageSize (sample.reg 5) = none) ∧
      (sample.pageSize (sample.reg 1) = some 3#32 ∧ 3#32 ≤ sample.reg 3) := by decide
theorem meets_LoadAfterStoreReadsTheLastWord :
    (sample.wordAt (storeAddr 1 2 sample).1 (storeAddr 1 2 sample).2).isSome = true ∧
      loadAddr 1 2 sample = storeAddr 1 2 sample ∧ loadAddr 1 0 sample ≠ storeAddr 1 2 sample ∧
      sample.wordAt (loadAddr 1 0 sample).1 (loadAddr 1 0 sample).2 = some 0#32 ∧
      got (exec (.st 1 2 3) sample)
        (fun t => loadAddr 1 2 t == storeAddr 1 2 sample && loadAddr 1 0 t == loadAddr 1 0 sample) = true := by decide
/-- An image whose word 0 stores register 2 to its own word 1, the next one fetched. -/
def selfStore : State := at0 0x2000000A#32 [(1, 1#32), (2, 0xE0000000#32)]
theorem meets_TheNextFetchSeesAStore :
    nextInstr selfStore = some (.st 0 1 2) ∧ selfStore.reg 0 = 0#32 ∧
      (selfStore.wordAt 0#32 (selfStore.reg 1)).isSome = true ∧ selfStore.reg 1 = selfStore.pc + 1#32 := by decide
theorem meets_AllocGivesAZeroFilledPage :
    (0x80000011#32).toNat / 2 ^ 28 = 8 ∧ hostCanAllocate sample (sample.reg 5) = true ∧
      sample.freeList = 2#32 :: [] ∧
      (hostCanAllocate State.reset 0#32 = true ∧ State.reset.freeList = [] ∧ State.reset.nextId < 2 ^ 32) ∧
      ({ State.reset with nextId := 2 ^ 32 - 1 } : State).nextId < 2 ^ 32 ∧
      hostCanAllocate { sample with hostGrants := .within 2 3 } (sample.reg 1) = true := by decide
theorem meets_AllocFaultsWhenMemoryIsOut :
    hostCanAllocate { sample with hostGrants := .within 2 2 } (sample.reg 1) = false ∧
      hostCanAllocate { sample with hostGrants := .within 2 3 } (sample.reg 2) = false ∧
      ({ State.reset with nextId := 2 ^ 32 } : State).freeList = [] ∧
      ({ State.reset with nextId := 2 ^ 32 } : State).nextId = 2 ^ 32 := by decide
theorem meets_FreeDropsThePageOrFaults :
    (0x90000002#32).toNat / 2 ^ 28 = 9 ∧ (sample.reg 1 ≠ 0#32 ∧ sample.pageSize (sample.reg 1) ≠ none) ∧
      sample.reg 0 = 0#32 ∧ sample.pageSize (sample.reg 2) = none ∧ sample.pageSize (sample.reg 3) = none ∧
      got (exec (.free 1) sample) (fun t => t.reg 1 == sample.reg 1) = true := by decide
theorem meets_HostGrantsCoverEveryAnswer :
    got (step { at0 0x80000011#32 [(1, 3#32)] with hostGrants := .within 4 2 })
      (fun t => t.reg 2 == 1#32 && t.hostGrants == .within 4 2) = true := by decide
/-- Two pages present, in registers 1 and 2. -/
def twoPages : State :=
  { sample with pages := [(0, Page.zeroed 2#32), (1, Page.zeroed 1#32), (2, Page.zeroed 0#32)], freeList := [],
                hostGrants := .within 4 4 }
theorem meets_FreedIdentifiersAreReusedLastInFirstOut :
    twoPages.reg 1 ≠ 0#32 ∧ twoPages.reg 2 ≠ 0#32 ∧ twoPages.reg 1 ≠ twoPages.reg 2 ∧
      twoPages.pageSize (twoPages.reg 1) ≠ none ∧ twoPages.pageSize (twoPages.reg 2) ≠ none ∧
      got (exec (.free 1) twoPages) (fun t => hostCanAllocate t (t.reg 3) &&
        got (exec (.free 2) t) (fun t₂ => hostCanAllocate t₂ (t₂.reg 3) &&
          got (exec (.alloc 4 3) t₂) (fun u => hostCanAllocate u (u.reg 3)))) = true := by decide
theorem meets_AllocReturnsAnUnusedIdentifier :
    sample.Inv ∧ hostCanAllocate sample (sample.reg 3) = true ∧ (sample.freeList ≠ [] ∨ sample.nextId < 2 ^ 32) :=
  ⟨sample_inv, by decide, .inr (by decide)⟩
/-- A state that is about to allocate under a fresh identifier. -/
def beforeAlloc : State := at0 0x80000009#32 [(1, 2#32)]
theorem meets_AbsentPagesReturnOnlyByAllocation :
    1#32 ≠ 0#32 ∧ beforeAlloc.pageSize 1#32 = none ∧
      got (step beforeAlloc) (fun t => t.pageSize 1#32 == some 2#32 && t.reg 1 == 1#32) = true := by decide
theorem meets_TheCounterOnlyCountsFreshIdentifiers :
    got (step beforeAlloc) (fun t => t.nextId == beforeAlloc.nextId + 1) = true := by decide
theorem meets_HaltEndsTheRun :
    (0x7FFFFFFF#32).toNat / 2 ^ 28 = 7 ∧ nextInstr (at0 0x70000000#32 []) = some .halt ∧
      got (step (at0 0x70000000#32 [])) (fun t => t.status == .halted) = true := by decide
theorem meets_LoadprogReplacesTheImageAndJumps :
    (0xC0000006#32).toNat / 2 ^ 28 = 12 ∧ sample.reg 0 = 0#32 ∧
      (sample.reg 1 ≠ 0#32 ∧ sample.pageSize (sample.reg 1) = some 3#32) ∧
      (sample.status = .running ∧ sample.abortReq = false ∧ 3#32 ≤ sample.reg 3) ∧
      (sample.reg 2 ≠ 0#32 ∧ sample.pageSize (sample.reg 2) = none) := by decide
theorem meets_ReplacementIsACopy :
    sample.reg 1 ≠ 0#32 ∧ sample.pageSize (sample.reg 1) = some 3#32 ∧ 3#32 ≤ sample.reg 3 ∧
      got (exec (.loadprog 1 0) sample) (fun t =>
        got (exec (.st 0 2 5) t) (fun u => u.wordAt 0#32 2#32 == some 0xFFFFFFFF#32) && t.reg 0 == 0#32 &&
        got (exec (.st 1 2 5) t) (fun u => u.wordAt 1#32 2#32 == some 0xFFFFFFFF#32) && t.reg 1 == sample.reg 1) = true := by
  decide
theorem meets_UnknownOpcodesOnlyAdvance :
    ((0xE0000000#32).toNat / 2 ^ 28 = 14 ∧ (0xF1234567#32).toNat / 2 ^ 28 = 15) ∧
      (at0 0xE0000000#32 []).status = .running ∧ (at0 0xE0000000#32 []).abortReq = false ∧
      (at0 0xE0000000#32 []).wordAt 0#32 0#32 = some 0xE0000000#32 ∧
      (at0 0xF1234567#32 []).wordAt 0#32 0#32 = some 0xF1234567#32 := by decide
theorem meets_OutEmitsOneByteOrFaults :
    (0xA0000001#32).toNat / 2 ^ 28 = 10 ∧ ((at0 0#32 [(1, 255#32)]).reg 1).toNat ≤ 255 ∧
      255 < ((at0 0#32 [(1, 256#32)]).reg 1).toNat := by decide
theorem meets_InReadsTheSentinelOrWaits :
    (0xB0000001#32).toNat / 2 ^ 28 = 11 ∧ ({ sample with inEOF := true } : State).inEOF = true ∧ sample.inEOF = false := by
  decide
theorem meets_TheHostsAnswerCompletesIn :
    ({ sample with status := .waitInput 7 } : State).status = .waitInput 7 ∧ sample.abortReq = false ∧
      sample.hostInput = [] ∧ ({ sample with hostInput := [.byte 255#8] } : State).hostInput = .byte 255#8 :: [] ∧
      ({ sample with hostInput := [.eof] } : State).hostInput = .eof :: [] := by decide
theorem meets_EndOfStreamPersists :
    got (step { at0 0xB0000001#32 [] with inEOF := true }) (fun t => t.inEOF && t.reg 1 == 0xFFFFFFFF#32) = true ∧
      ({ at0 0xB0000001#32 [] with inEOF := true } : State).status = .running := by decide
theorem meets_OutputIsTheBytesEmittedInOrder :
    got (step (at0 0xA0000001#32 [(1, 72#32)])) (fun t => t.out == [0x48#8]) = true ∧
      ∃ s t, State.load [0xA0#8, 0#8, 0#8, 0#8] = some s ∧ RunEmitting s [0#8] t :=
  ⟨by decide, State.resetWith [0xA0000000#32], _, by decide, .step (.refl _) rfl⟩
/-- The four causes an instruction of `sample` can raise beside OutOfMemory, and instructions that raise none. -/
theorem meets_FaultsAreThoseOfTheTable :
    sample.Inv ∧ faultOf (.ld 1 2 0) sample = some (.invalidPage 2#32) ∧ faultOf (.st 1 3 0) sample = some (.memory 1#32 3#32) ∧
      faultOf (.div 1 2 0) sample = some (.arithmetic 2#32 0#32) ∧ faultOf (.out 5) sample = some (.outputRange 0xFFFFFFFF#32) ∧
      faultOf (.free 0) sample = some (.invalidPage 0#32) ∧ faultOf (.loadprog 2 0) sample = some (.invalidPage 2#32) ∧
      sample.status = .running ∧ faultOf (.ld 1 1 2) sample = none ∧ faultOf (.alloc 1 1) sample = none :=
  ⟨sample_inv, by decide⟩
theorem meets_FaultsAreThoseOfTheTable_outOfMemory :
    ({ sample with hostGrants := .within 3 8 } : State).Inv ∧
      faultOf (.alloc 1 3) { sample with hostGrants := .within 3 8 } = some (.outOfMemory 3#32) :=
  ⟨⟨sample_inv.image, sample_inv.fresh, sample_inv.distinct, sample_inv.range, sample_inv.freed, sample_inv.live,
    sample_inv.bound, sample_inv.positive, sample_inv.memory⟩, by decide⟩
theorem meets_FaultsArePrecise :
    got (step (at0 0x50000053#32 [])) (fun t => t.status == .faulted) = true ∧
      got (step (sample.setPc 2#32)) (fun t => t.status == .faulted) = true := by decide
theorem meets_TheAbortIsTakenBetweenSteps :
    ({ sample with abortReq := true } : State).abortReq = true ∧ sample.status.over = false ∧
      ({ sample with status := .waitInput 1 } : State).status.over = false := by decide
theorem meets_OnlyTheNamedRegisterChanges :
    got (step (at0 0xD2000048#32 [])) (fun t => t.reg 1 != (at0 0xD2000048#32 []).reg 1) = true ∧
      got (step { sample with status := .waitInput 1, hostInput := [.eof] }) (fun t => t.reg 1 != sample.reg 1) = true := by
  decide
theorem meets_ThePcAdvancesUnlessOpcode12 :
    nextInstr (at0 0xC0000001#32 [(1, 100#32)]) = some (.loadprog 0 1) ∧
      got (step (at0 0xC0000001#32 [(1, 100#32)])) (fun t => t.pc == 100#32) = true ∧
      nextInstr sample = some (.add 1 2 3) ∧ got (step sample) (fun t => t.pc == 1#32) = true := by decide
theorem meets_TheImageVersionCountsReplacements :
    got (step (with1 0xC0000008#32 [0#32] [(1, 1#32)])) (fun t => t.imageVer == 1) = true ∧
      nextInstr (with1 0xC0000008#32 [0#32] [(1, 1#32)]) = some (.loadprog 1 0) ∧
      got (step (with1 0xC0000000#32 [0#32] [])) (fun t => t.imageVer == 0) = true ∧
      nextInstr (with1 0xC0000000#32 [0#32] []) = some (.loadprog 0 0) ∧
      got (step sample) (fun t => t.imageVer == sample.imageVer) = true ∧
      nextInstr sample = some (.add 1 2 3) := by decide
/-- `selfStore` stores a word into page 0 that differs from the one there. -/
theorem meets_MemoryChangesOnlyByItsInstructions :
    sample.Inv ∧ got (step selfStore) (fun t => t.pages != selfStore.pages && t.page 0#32 != selfStore.page 0#32) = true :=
  ⟨sample_inv, by decide⟩
theorem meets_EveryStepKeepsTheInvariant : sample.Inv ∧ got (step sample) (fun t => t.reg 1 == 5#32) = true :=
  ⟨sample_inv, by decide⟩
theorem meets_EveryRunOfALoadedImageKeepsTheInvariant :
    ∃ s t, State.load [0xD2#8, 0#8, 0#8, 0x48#8] = some s ∧ Reach s t ∧ t.reg 1 = 72#32 := by
  refine ⟨State.resetWith [0xD2000048#32], (advance (State.resetWith [0xD2000048#32])).setReg 1 72#32, by decide, ?_, by decide⟩
  exact .step (.refl _) rfl
theorem meets_ImageVersionAndFaultRecordAreInvisible :
    SameVisible sample { sample with imageVer := 7 } ∧
      got (runSteps 1 sample) (fun t => t.reg 1 == 5#32) = true ∧
      (match runSteps 1 { sample with status := .aborted } with
        | .fault r => r == .runAborted
        | .next _ => false
        | .refused _ => false) = true :=
  ⟨rfl, by decide, by decide⟩
theorem meets_PseudoInstructionsDoAsDescribed :
    sample.reg 0 = 0#32 ∧ ∀ i, AsmLine.instr (.li 7 0x01FFFFFF#32) = .instr i → i.wf = true := by
  refine ⟨by decide, fun i h => ?_⟩
  cases h; decide

end Sys2Proof.Machine.Tests
end

section
/-! SUPPORT. The program replacement as a copy (spec/20_memory.md R61): what opcode 12 leaves in the memory when it
replaces the image, and which words a later opcode 2 leaves alone. -/

namespace Sys2Proof.Machine

/-- Opcode 12 with a present page other than page 0: the copy into page 0, the new version, and the jump (R172). -/
theorem exec_loadprog_of_page {b : Reg} {s : State} {p : Page} (c : Reg) (h0 : s.reg b ≠ 0#32)
    (hp : s.page (s.reg b) = some p) :
    exec (.loadprog b c) s =
      .next (State.setPc { s.setPage 0#32 p with imageVer := s.imageVer + 1 } (s.reg c)) := by
  have hr := replaceImage_ok_iff.mpr (.inr ⟨h0, p, hp, rfl⟩)
  simp only [exec, execLoadprog, hr, orRaise_ok]

/-- Opcode 2 faults, or is one `PageWrite` (R133, R134). -/
theorem exec_st_cases {a b c : Reg} {s t : State} (h : exec (.st a b c) s = .next t) :
    (∃ e, t = raise e s) ∨ pageWrite s (s.reg a, s.reg b) (s.reg c) = .ok t := by
  cases exec_cases h with
  | fault e _ ht => exact .inl ⟨e, ht⟩
  | store _ _ _ hi ht => cases hi; exact .inr ht
  | same hi => simp at hi
  | reg _ _ hr => cases hr
  | halt hi | alloc _ _ _ _ hi | free _ hi | out _ _ hi | request _ hi | jump _ _ _ hi => cases hi

/-- Opcode 2 changes no word of a page other than the one its register A names, faulting or not. -/
theorem wordAt_exec_st_of_ne {a b c : Reg} {s t : State} {id : Word} (h : exec (.st a b c) s = .next t)
    (hid : id ≠ s.reg a) (k : Word) : t.wordAt id k = s.wordAt id k := by
  obtain ⟨e, rfl⟩ | hw := exec_st_cases h
  · rfl
  · simp [wordAt_pageWrite hw, hid]

/-- Settles O36: opcode 12 puts the page into page 0 and leaves the page itself as it was, so that the two are two
entries of the page table, and a later opcode 2 changes words of the page it names only. -/
theorem replacementIsACopy : Obligations.ReplacementIsACopy := by
  intro b c s t n h0 hn ht
  obtain ⟨p, hp, rfl⟩ := pageSize_eq_some.mp hn
  have htp : t.pages = (s.setPage 0#32 p).pages := by
    rw [exec_loadprog_of_page c h0 hp] at ht
    cases ht; rfl
  have hsize (j : Word) : t.pageSize j = if j = 0#32 then some p.size else s.pageSize j := by
    rw [pageSize_congr htp, pageSize_setPage]
  have hword (j k : Word) : t.wordAt j k = if j = 0#32 then p.read k else s.wordAt j k := by
    rw [wordAt_congr htp, wordAt_setPage]
  refine ⟨by simp [hsize], fun k => ?copied, fun k hk => ?ends, by simp [hsize, h0, hn], fun k => by simp [hword, h0],
    fun x y z u hu => ⟨fun hx => ?intoImage, fun hx => ?intoPage⟩⟩
  case copied => rw [hword, if_pos rfl]; simp [State.wordAt, hp]
  case ends => simpa [hword] using Page.read_eq_none.mpr hk
  case intoImage => exact wordAt_exec_st_of_ne hu (hx ▸ h0)
  case intoPage => exact wordAt_exec_st_of_ne hu (hx ▸ h0.symm)

end Sys2Proof.Machine
end

section
/-! SUPPORT. The decoder against the layouts (spec/30_encoding.md R80, R81 and R83): the instruction a word selects, its
fields read as quotients and remainders. -/

namespace Sys2Proof

/-- The zero-extended immediate as a remainder (R81, R83). -/
theorem fieldImm_eq (w : Word) : fieldImm w = BitVec.ofNat 32 (w.toNat % 2 ^ 25) := by
  simp [fieldImm, field_eq]

/-- Settles O4: each named register is the field the decoder reads, the immediate is the remainder, and the opcode that
selects the instruction is the quotient. -/
theorem decodeReadsTheLayoutFields : Obligations.DecodeReadsTheLayoutFields := by
  intro w a b c ai ha hb hc hai
  obtain rfl : fieldA w = a := Fin.ext ((fieldA_val w).trans ha.symm)
  obtain rfl : fieldB w = b := Fin.ext ((fieldB_val w).trans hb.symm)
  obtain rfl : fieldC w = c := Fin.ext ((fieldC_val w).trans hc.symm)
  obtain rfl : fieldAi w = ai := Fin.ext ((fieldAi_val w).trans hai.symm)
  rw [← opField_eq, ← fieldImm_eq]
  rfl

end Sys2Proof
end

section
/-! SUPPORT. The rules the instruction statements share: the opcode of a word against the decoder's case, and what a
register write or a raised fault leaves unchanged. -/

namespace Sys2Proof.Machine

/-- The opcode as a quotient is the field the decoder selects by (R80, R82). -/
theorem hasOpcode_of_opField {op : Nat} {form : Word → Instr} (h : ∀ w, opField w = op → decode w = form w) :
    HasOpcode op form :=
  fun w hw => h w ((opField_eq w).trans hw)

/-- The frame of an instruction whose one effect is a register write (R21). -/
theorem onlyReg_setReg (a : Reg) (v : Word) (s : State) : OnlyReg a s (s.setReg a v) :=
  ⟨rfl, fun _ h => reg_setReg_of_ne s a v h, fun _ => rfl, fun _ _ => rfl⟩

/-- What a raised fault leaves is the state the fault statements write out (R212, R213). -/
theorem faultsWith_of_raise {c : Cause} {i : Instr} {s : State} (h : exec i s = .next (raise c s)) :
    FaultsWith c i s := h

end Sys2Proof.Machine
end

section
/-! SUPPORT. The register and ALU instructions (spec/40_alu.md R110 to R116): the ALU's values as numbers and bits, one
equation per outcome of each instruction, and the statements from these. -/

namespace Sys2Proof.Machine

theorem aluAdd_toNat (x y : Word) : (aluAdd x y).toNat = (x.toNat + y.toNat) % 2 ^ 32 := BitVec.toNat_ofNat _ _

theorem aluMul_toNat (x y : Word) : (aluMul x y).toNat = (x.toNat * y.toNat) % 2 ^ 32 := BitVec.toNat_ofNat _ _

theorem aluNand_getLsbD (x y : Word) {j : Nat} (h : j < 32) :
    (aluNand x y).getLsbD j = !(x.getLsbD j && y.getLsbD j) := by
  simp [aluNand, h]

/-- A quotient is no larger than its dividend, so it is a word and no reduction happens (R113, R116). -/
theorem toNat_ofNat_div (x y : Word) : (BitVec.ofNat 32 (x.toNat / y.toNat)).toNat = x.toNat / y.toNat :=
  (BitVec.toNat_ofNat _ _).trans (Nat.mod_eq_of_lt ((Nat.div_le_self _ _).trans_lt x.isLt))

theorem nonZero_eq_true {v : Word} : nonZero v = true ↔ v ≠ 0#32 := bne_iff_ne

/-- The immediate of a well-formed opcode 13 is at most 0x01FFFFFF (R83). -/
theorem imm_le_of_wf {ai : Reg} {imm : Word} (h : (Instr.li ai imm).wf = true) : imm.toNat ≤ 0x01FFFFFF := by
  have : imm.toNat < 2 ^ 25 := of_decide_eq_true h
  omega

theorem exec_add (a b c : Reg) (s : State) :
    exec (.add a b c) s = .next (s.setReg a (aluAdd (s.reg b) (s.reg c))) := rfl

theorem exec_mul (a b c : Reg) (s : State) :
    exec (.mul a b c) s = .next (s.setReg a (aluMul (s.reg b) (s.reg c))) := rfl

theorem exec_nand (a b c : Reg) (s : State) :
    exec (.nand a b c) s = .next (s.setReg a (aluNand (s.reg b) (s.reg c))) := rfl

theorem exec_li (ai : Reg) (imm : Word) (s : State) : exec (.li ai imm) s = .next (s.setReg ai imm) := rfl

theorem exec_cmov_of_ne_zero (a b : Reg) {c : Reg} {s : State} (h : s.reg c ≠ 0#32) :
    exec (.cmov a b c) s = .next (s.setReg a (s.reg b)) := by
  simp only [exec, execCmov, if_pos (nonZero_eq_true.mpr h)]

theorem exec_cmov_of_eq_zero (a b : Reg) {c : Reg} {s : State} (h : s.reg c = 0#32) :
    exec (.cmov a b c) s = .next s := by
  simp only [exec, execCmov, if_neg (mt nonZero_eq_true.mp (not_not_intro h))]

theorem exec_div_of_ne_zero (a b : Reg) {c : Reg} {s : State} (h : s.reg c ≠ 0#32) :
    exec (.div a b c) s = .next (s.setReg a (BitVec.ofNat 32 ((s.reg b).toNat / (s.reg c).toNat))) := by
  simp only [exec, execDiv, aluDiv_ok_iff.mpr ⟨h, rfl⟩, orRaise_ok]

theorem exec_div_of_eq_zero (a b : Reg) {c : Reg} {s : State} (h : s.reg c = 0#32) :
    exec (.div a b c) s = .next (raise (.arithmetic (s.reg b) (s.reg c)) s) := by
  simp only [exec, execDiv, aluDiv_error_iff.mpr ⟨h, rfl⟩, orRaise_error]

/-- Settles O16: the condition is the one test of R110, and each outcome has its own equation. -/
theorem cmovMovesWhenConditionHolds : Obligations.CmovMovesWhenConditionHolds := by
  refine ⟨hasOpcode_of_opField fun w hw => by simp [decode, hw], fun a b c s => ⟨fun h => ?moves, fun h => ?keeps⟩⟩
  case moves => exact ⟨_, exec_cmov_of_ne_zero a b h, by simp, onlyReg_setReg _ _ _⟩
  case keeps => exact exec_cmov_of_eq_zero a b h

/-- Settles O17: one register write, of the sum reduced modulo 2^32. -/
theorem addWritesTheSumModulo : Obligations.AddWritesTheSumModulo :=
  ⟨hasOpcode_of_opField fun w hw => by simp [decode, hw],
    fun a b c s => ⟨_, exec_add a b c s, by rw [reg_setReg_self, aluAdd_toNat], onlyReg_setReg _ _ _⟩⟩

/-- Settles O18: one register write, of the product reduced modulo 2^32. -/
theorem mulWritesTheProductModulo : Obligations.MulWritesTheProductModulo :=
  ⟨hasOpcode_of_opField fun w hw => by simp [decode, hw],
    fun a b c s => ⟨_, exec_mul a b c s, by rw [reg_setReg_self, aluMul_toNat], onlyReg_setReg _ _ _⟩⟩

/-- Settles O19: the check of the divisor decides between the quotient, which is a word, and the fault, whose record
holds the dividend. -/
theorem divWritesTheQuotientOrFaults : Obligations.DivWritesTheQuotientOrFaults := by
  refine ⟨hasOpcode_of_opField fun w hw => by simp [decode, hw], fun a b c s => ⟨fun h => ?divides, fun h => ?faults⟩⟩
  case divides =>
    exact ⟨_, exec_div_of_ne_zero a b h, by rw [reg_setReg_self, toNat_ofNat_div], onlyReg_setReg _ _ _⟩
  case faults => exact ⟨s.reg c, faultsWith_of_raise (exec_div_of_eq_zero a b h)⟩

/-- Settles O20: one register write, of the word whose bits are the negated conjunctions. -/
theorem nandWritesTheComplementOfTheAnd : Obligations.NandWritesTheComplementOfTheAnd :=
  ⟨hasOpcode_of_opField fun w hw => by simp [decode, hw], fun a b c s =>
    ⟨_, exec_nand a b c s, fun _ hj => by rw [reg_setReg_self, aluNand_getLsbD _ _ hj], onlyReg_setReg _ _ _⟩⟩

/-- Settles O21: the word's two fields as quotient and remainder, and one register write of the immediate, which
well-formedness bounds. -/
theorem liWritesTheZeroExtendedImmediate : Obligations.LiWritesTheZeroExtendedImmediate := by
  refine ⟨fun w hw => ⟨?decodes, fieldAi_val w⟩, fun ai imm s hwf => ?writes⟩
  case decodes =>
    have hop : opField w = 13 := (opField_eq w).trans hw
    simp [decode, hop, fieldImm_eq]
  case writes =>
    exact ⟨_, exec_li ai imm s, by simp, by simpa using imm_le_of_wf hwf, onlyReg_setReg _ _ _⟩

end Sys2Proof.Machine
end

section
/-! SUPPORT. The indexed load and store (spec/41_load_store.md R130 to R135): one equation per outcome of each
instruction's one-word access, the frame of a store, and the statements from these. -/

namespace Sys2Proof.Machine

theorem exec_ld_of_ok {a b c : Reg} {s : State} {v : Word} (h : pageRead s (loadAddr b c s) = .ok v) :
    exec (.ld a b c) s = .next (s.setReg a v) := by
  simp only [exec, execLd, h, orRaise_ok]

theorem exec_ld_of_error {b c : Reg} {s : State} {e : Cause} (a : Reg) (h : pageRead s (loadAddr b c s) = .error e) :
    exec (.ld a b c) s = .next (raise e s) := by
  simp only [exec, execLd, h, orRaise_error]

theorem exec_st_of_ok {a b c : Reg} {s t : State} (h : pageWrite s (storeAddr a b s) (s.reg c) = .ok t) :
    exec (.st a b c) s = .next t := by
  simp only [exec, execSt, h, orRaise_ok]

theorem exec_st_of_error {a b c : Reg} {s : State} {e : Cause}
    (h : pageWrite s (storeAddr a b s) (s.reg c) = .error e) : exec (.st a b c) s = .next (raise e s) := by
  simp only [exec, execSt, h, orRaise_error]

/-- The frame of a `PageWrite` that passes its checks (R55, R58). -/
theorem onlyWord_pageWrite {s t : State} {id k v : Word} (h : pageWrite s (id, k) v = .ok t) : OnlyWord id k s t :=
  ⟨pageWrite_ok_frame h, pageSize_pageWrite h, fun j o hne => by rw [wordAt_pageWrite h, if_neg hne]⟩

/-- Settles O22: the load's outcome is that of its one `PageRead`, which answers the word that exists, and otherwise
reports an absent page or an offset beyond a present one. -/
theorem ldReadsTheAddressedWordOrFaults : Obligations.LdReadsTheAddressedWordOrFaults := by
  refine ⟨hasOpcode_of_opField fun w hw => by simp [decode, hw],
    fun a b c s => ⟨fun v hv => ?reads, fun h0 hn => ?absent, fun n hn hk => ?beyond⟩⟩
  case reads => exact ⟨_, exec_ld_of_ok (pageRead_ok_iff.mpr hv), by simp, onlyReg_setReg _ _ _⟩
  case absent => exact faultsWith_of_raise (exec_ld_of_error a (pageRead_absent h0 hn))
  case beyond => exact faultsWith_of_raise (exec_ld_of_error a (pageRead_outOfRange hn hk))

/-- Settles O23: the store's outcome is that of its one `PageWrite`, which puts the value at a word that exists and
leaves the rest, and otherwise reports an absent page or an offset beyond a present one. -/
theorem stWritesTheAddressedWordOrFaults : Obligations.StWritesTheAddressedWordOrFaults := by
  refine ⟨hasOpcode_of_opField fun w hw => by simp [decode, hw],
    fun a b c s => ⟨fun hw => ?writes, fun h0 hn => ?absent, fun n hn hk => ?beyond⟩⟩
  case writes =>
    obtain ⟨t, ht⟩ := pageWrite_exists (s.reg c) hw
    exact ⟨t, exec_st_of_ok ht, by rw [wordAt_pageWrite ht, if_pos rfl], onlyWord_pageWrite ht⟩
  case absent => exact faultsWith_of_raise (exec_st_of_error (pageWrite_absent h0 hn))
  case beyond => exact faultsWith_of_raise (exec_st_of_error (pageWrite_outOfRange hn hk))

end Sys2Proof.Machine
end

section
/-! SUPPORT. The freeing of a page (spec/42_page_alloc.md R153): one equation per outcome of opcode 9, what a freed page
leaves in the memory, and the fault of every instruction that names an absent page. -/

namespace Sys2Proof.Machine

/-- The state after opcode 9 passes its checks: the page absent, its identifier the head of the free list (R153). -/
def freed (id : Word) (s : State) : State := { s.dropPage id with freeList := id :: s.freeList }

theorem pageSize_freed (id j : Word) (s : State) :
    (freed id s).pageSize j = if j = id then none else s.pageSize j :=
  pageSize_dropPage s id j

theorem wordAt_freed (id j k : Word) (s : State) :
    (freed id s).wordAt j k = if j = id then none else s.wordAt j k :=
  wordAt_dropPage s id j k

theorem sameOtherPages_freed (id : Word) (s : State) : SameOtherPages id s (freed id s) :=
  fun j hj => ⟨by rw [pageSize_freed, if_neg hj], fun k => by rw [wordAt_freed, if_neg hj]⟩

theorem exec_free_of_present {c : Reg} {s : State} (h0 : s.reg c ≠ 0#32) (hp : s.pageSize (s.reg c) ≠ none) :
    exec (.free c) s = .next (freed (s.reg c) s) := by
  have hr : release (s.reg c) s = .ok (freed (s.reg c) s) :=
    release_ok_iff.mpr ⟨h0, mt pageSize_eq_none.mpr hp, rfl⟩
  simp only [exec, execFree, hr, orRaise_ok]

theorem exec_free_of_invalid {c : Reg} {s : State} (h : s.reg c = 0#32 ∨ s.pageSize (s.reg c) = none) :
    exec (.free c) s = .next (raise (.invalidPage (s.reg c)) s) := by
  have hr := release_error_iff.mpr ⟨rfl, h.imp_right pageSize_eq_none.mp⟩
  simp only [exec, execFree, hr, orRaise_error]

/-- Opcode 12 with an absent page other than page 0 stops at `Get` (R172). -/
theorem exec_loadprog_of_absent {b : Reg} {s : State} (c : Reg) (h0 : s.reg b ≠ 0#32)
    (hn : s.pageSize (s.reg b) = none) : exec (.loadprog b c) s = .next (raise (.invalidPage (s.reg b)) s) := by
  have hr := replaceImage_error_iff.mpr ⟨rfl, h0, pageSize_eq_none.mp hn⟩
  simp only [exec, execLoadprog, hr, orRaise_error]

/-- Every instruction that names an absent page other than page 0 faults with its identifier (R56, R153). -/
theorem faultsWith_invalidPage_of_absent {id : Word} {x : Reg} {t : State} (y z : Reg) (h0 : id ≠ 0#32)
    (hn : t.pageSize id = none) (hx : t.reg x = id) :
    FaultsWith (.invalidPage id) (.ld y x z) t ∧ FaultsWith (.invalidPage id) (.st x y z) t ∧
      FaultsWith (.invalidPage id) (.free x) t ∧ FaultsWith (.invalidPage id) (.loadprog x y) t := by
  subst hx
  exact ⟨faultsWith_of_raise (exec_ld_of_error y (pageRead_absent h0 hn)),
    faultsWith_of_raise (exec_st_of_error (pageWrite_absent h0 hn)),
    faultsWith_of_raise (exec_free_of_invalid (.inr hn)),
    faultsWith_of_raise (exec_loadprog_of_absent y h0 hn)⟩

/-- Settles O29: a freeing that passes both checks leaves the state `freed`, in which the identifier's page is
absent, so that every later use of it faults; either check alone raises the fault. -/
theorem freeDropsThePageOrFaults : Obligations.FreeDropsThePageOrFaults := by
  refine ⟨hasOpcode_of_opField fun w hw => by simp [decode, hw],
    fun c s => ⟨fun h0 hp => ?frees, fun h0 => ?zero, fun hn => ?absent⟩⟩
  case frees =>
    have hgone : (freed (s.reg c) s).pageSize (s.reg c) = none := by rw [pageSize_freed, if_pos rfl]
    refine ⟨_, exec_free_of_present h0 hp, hgone, sameOtherPages_freed _ s, rfl, fun x y z hx => ?laterUses⟩
    exact faultsWith_invalidPage_of_absent y z h0 hgone hx
  case zero => exact h0 ▸ faultsWith_of_raise (exec_free_of_invalid (.inl h0))
  case absent => exact faultsWith_of_raise (exec_free_of_invalid (.inr hn))

end Sys2Proof.Machine
end

section
/-! SUPPORT. Halt, load-program / jump and the unknown opcodes (spec/43_control.md R170 to R174): the step of a running
block by what its fetch finds, the only way to HALTED, the state opcode 12 leaves, and the statements from these. -/

namespace Sys2Proof.Machine

/-! The step of a running block. -/

theorem step_of_word {s : State} {w : Word} (hs : s.status = .running) (ha : s.abortReq = false)
    (hw : s.wordAt 0#32 s.pc = some w) : step s = exec (decode w) (advance s) := by
  simp [step, runInstr, hs, ha, fetch_eq, hw]

theorem step_of_no_word {s : State} (hs : s.status = .running) (ha : s.abortReq = false)
    (hw : s.wordAt 0#32 s.pc = none) : step s = .next (fetchFault s) := by
  simp [step, runInstr, hs, ha, fetch_eq, hw]

theorem step_of_halted {s : State} (hs : s.status = .halted) : step s = .fault .runHalted := by
  simp [step, hs]

/-- The instruction about to be executed is the decoded word at the pc of a running block with no abort asked for. -/
theorem nextInstr_eq_some {s : State} {i : Instr} :
    nextInstr s = some i ↔
      s.status = .running ∧ s.abortReq = false ∧ ∃ w, s.wordAt 0#32 s.pc = some w ∧ decode w = i := by
  cases hs : s.status <;> simp [nextInstr, hs]

/-- The step of a block that is about to execute an instruction is that instruction after the advance (R170). -/
theorem step_of_nextInstr {s : State} {i : Instr} (h : nextInstr s = some i) : step s = exec i (advance s) := by
  obtain ⟨hs, ha, w, hw, rfl⟩ := nextInstr_eq_some.mp h
  exact step_of_word hs ha hw

/-! Halt. -/

theorem exec_halt (s : State) : exec .halt s = .next { s with status := .halted } := rfl

/-- Of the instructions a running block executes, only opcode 7 leaves HALTED: every other keeps the status, waits for
input, or faults. -/
theorem eq_halt_of_exec_halted {i : Instr} {s t : State} (hs : s.status = .running) (h : exec i s = .next t)
    (ht : t.status = .halted) : i = .halt := by
  have kept (hk : t.status = s.status) : i = .halt := by simp [hk, hs] at ht
  cases exec_cases h with
  | halt hi => exact hi
  | fault _ _ hu | request _ _ _ hu => subst hu; cases ht
  | same _ hu | reg _ _ _ hu | out _ _ _ _ hu => subst hu; exact kept rfl
  | store _ _ _ _ hw => exact kept (by rw [pageWrite_ok_frame hw])
  | alloc _ _ _ _ _ hu ht' => exact kept (by rw [ht', allocate_ok_frame hu]; rfl)
  | free _ _ hr => exact kept (by obtain ⟨-, -, rfl⟩ := release_ok_iff.mp hr; rfl)
  | jump _ _ _ _ hr hu =>
    subst hu
    obtain ⟨-, rfl⟩ | ⟨-, _, -, rfl⟩ := replaceImage_ok_iff.mp hr <;> exact kept rfl

/-- An input wait goes on or ends in RUNNING, whatever the host answers (R192). -/
theorem awaitInput_status (c : Reg) (s : State) :
    (awaitInput c s).status = s.status ∨ (awaitInput c s).status = .running := by
  obtain ⟨-, h⟩ | ⟨_, _, -, h⟩ | ⟨_, -, h⟩ := awaitInput_cases c s <;> simp [h]

/-- A step leaves HALTED only by executing opcode 7 (R29, R171). -/
theorem nextInstr_of_step_halted {s t : State} (h : step s = .next t) (ht : t.status = .halted) :
    nextInstr s = some .halt := by
  cases step_cases h with
  | abort _ _ hu | fetchFault _ _ _ hu => subst hu; cases ht
  | instr w hs ha hw he =>
    have hi : decode w = .halt := eq_halt_of_exec_halted (s := advance s) hs he ht
    exact nextInstr_eq_some.mpr ⟨hs, ha, w, hw, hi⟩
  | wait c hs _ hu =>
    subst hu
    rcases awaitInput_status c s with hk | hk <;> simp [hk, hs] at ht

/-- Settles O34: the step of a block about to halt is the status change after the advance, no step is defined from
there, and of the kinds of step only the instruction's can end in HALTED. -/
theorem haltEndsTheRun : Obligations.HaltEndsTheRun := by
  refine ⟨hasOpcode_of_opField fun w hw => by simp [decode, hw],
    fun s => ⟨exec_halt s, fun hi => ⟨_, step_of_nextInstr hi, rfl, step_of_halted rfl⟩⟩,
    fun s t => nextInstr_of_step_halted⟩

/-! Load-program. -/

/-- The state after opcode 12 replaces the image: the page's copy in page 0, the new version, and the jump (R172). -/
def replaced (p : Page) (target : Word) (s : State) : State :=
  State.setPc { s.setPage 0#32 p with imageVer := s.imageVer + 1 } target

theorem pageSize_replaced (p : Page) (target j : Word) (s : State) :
    (replaced p target s).pageSize j = if j = 0#32 then some p.size else s.pageSize j :=
  pageSize_setPage s 0#32 j p

theorem wordAt_replaced (p : Page) (target j k : Word) (s : State) :
    (replaced p target s).wordAt j k = if j = 0#32 then p.read k else s.wordAt j k :=
  wordAt_setPage s 0#32 j k p

theorem sameOtherPages_replaced (p : Page) (target : Word) (s : State) :
    SameOtherPages 0#32 s (replaced p target s) :=
  fun j hj => ⟨by rw [pageSize_replaced, if_neg hj], fun k => by rw [wordAt_replaced, if_neg hj]⟩

/-- A target beyond the new image is taken, and the next fetch reports it (R24, R172). -/
theorem step_replaced_of_beyond {p : Page} {target : Word} {s : State} (hs : s.status = .running)
    (ha : s.abortReq = false) (hk : p.size ≤ target) :
    step (replaced p target s) = .next (fetchFault (replaced p target s)) := by
  have hnone : (replaced p target s).wordAt 0#32 target = none := by
    rw [wordAt_replaced, if_pos rfl, Page.read_eq_none.mpr hk]
  exact step_of_no_word hs ha hnone

/-- Opcode 12 with page 0 named is a jump alone (R172). -/
theorem exec_loadprog_of_zero {b : Reg} {s : State} (c : Reg) (h : s.reg b = 0#32) :
    exec (.loadprog b c) s = .next (s.setPc (s.reg c)) := by
  simp only [exec, execLoadprog, replaceImage_ok_iff.mpr (.inl ⟨h, rfl⟩), orRaise_ok]

/-- Settles O35: the page that register B names decides between the jump alone, the state `replaced`, whose image is
that page, and the fault of its `Get`. -/
theorem loadprogReplacesTheImageAndJumps : Obligations.LoadprogReplacesTheImageAndJumps := by
  refine ⟨hasOpcode_of_opField fun w hw => by simp [decode, hw],
    fun b c s => ⟨exec_loadprog_of_zero c, fun h0 n hn => ?replaces, fun h0 hn => ?absent⟩⟩
  case replaces =>
    obtain ⟨p, hp, rfl⟩ := pageSize_eq_some.mp hn
    refine ⟨replaced p (s.reg c) s, exec_loadprog_of_page c h0 hp, by rw [pageSize_replaced, if_pos rfl],
      fun k => ?copied, sameOtherPages_replaced _ _ s, rfl, fun hs ha hk => step_replaced_of_beyond hs ha hk⟩
    rw [wordAt_replaced, if_pos rfl, State.wordAt, hp, Option.bind_some]
  case absent => exact faultsWith_of_raise (exec_loadprog_of_absent c h0 hn)

/-! The unknown opcodes. -/

theorem exec_unk14 (s : State) : exec .unk14 s = .next s := rfl

theorem exec_unk15 (s : State) : exec .unk15 s = .next s := rfl

theorem decode_of_opcode14 : HasOpcode 14 (fun _ => .unk14) :=
  hasOpcode_of_opField fun w hw => by simp [decode, hw]

theorem decode_of_opcode15 : HasOpcode 15 (fun _ => .unk15) :=
  hasOpcode_of_opField fun w hw => by simp [decode, hw]

/-- Settles O37: neither instruction changes the state it is given, so the step leaves the advanced state. -/
theorem unknownOpcodesOnlyAdvance : Obligations.UnknownOpcodesOnlyAdvance := by
  refine ⟨decode_of_opcode14, decode_of_opcode15, fun s => ⟨exec_unk14 s, exec_unk15 s⟩,
    fun s w hs ha hw hop => ?_⟩
  rw [step_of_word hs ha hw]
  obtain h | h := hop
  · rw [decode_of_opcode14 w h, exec_unk14, advance]
  · rw [decode_of_opcode15 w h, exec_unk15, advance]

end Sys2Proof.Machine
end

section
/-! SUPPORT. The output (spec/44_io.md R190 and R193): one equation per outcome of opcode 10, what every other step and
every act of the host leave of the output, and the output of a run. -/

namespace Sys2Proof.Machine

/-! Opcode 10. -/

/-- The byte of a value that is one, as `emittedNext` writes it (R190). -/
theorem outByte_of_le {v : Word} (h : v.toNat ≤ 255) : outByte v = .ok (BitVec.ofNat 8 v.toNat) :=
  outByte_ok_iff.mpr ⟨h, (BitVec.ofNat_toNat 8 v)⟩

theorem exec_out_of_byte {c : Reg} {s : State} (h : (s.reg c).toNat ≤ 255) :
    exec (.out c) s = .next (emit (BitVec.ofNat 8 (s.reg c).toNat) s) := by
  simp only [exec, execOut, outByte_of_le h, orRaise_ok]

theorem exec_out_of_range {c : Reg} {s : State} (h : 255 < (s.reg c).toNat) :
    exec (.out c) s = .next (raise (.outputRange (s.reg c)) s) := by
  simp only [exec, execOut, outByte_error_iff.mpr ⟨h, rfl⟩, orRaise_error]

/-! The bytes of the next step. -/

theorem emittedNext_of_byte {c : Reg} {s : State} (hi : nextInstr s = some (.out c)) (h : (s.reg c).toNat ≤ 255) :
    emittedNext s = [BitVec.ofNat 8 (s.reg c).toNat] := by
  simp only [emittedNext, hi, if_pos h]

theorem emittedNext_of_range {c : Reg} {s : State} (hi : nextInstr s = some (.out c)) (h : 255 < (s.reg c).toNat) :
    emittedNext s = [] := by
  simp only [emittedNext, hi, if_neg (Nat.not_le.mpr h)]

theorem emittedNext_of_not_out {s : State} (h : ∀ c, nextInstr s ≠ some (.out c)) : emittedNext s = [] := by
  unfold emittedNext
  split
  case h_1 c hc => exact absurd hc (h c)
  case h_2 => rfl

/-! What leaves the output alone. -/

/-- Of the instructions only opcode 10 changes the output (R193). -/
theorem out_exec_of_not_out {i : Instr} {s t : State} (hi : ∀ c, i ≠ .out c) (h : exec i s = .next t) :
    t.out = s.out := by
  cases exec_cases h with
  | out c _ ho => exact absurd ho (hi c)
  | fault _ _ ht | same _ ht | reg _ _ _ ht | halt _ ht | request _ _ _ ht => subst ht; rfl
  | store _ _ _ _ hw => rw [pageWrite_ok_frame hw]
  | alloc _ _ _ _ _ hu ht => rw [ht, allocate_ok_frame hu]; rfl
  | free _ _ hr => obtain ⟨-, -, rfl⟩ := release_ok_iff.mp hr; rfl
  | jump _ _ _ _ hr ht =>
    subst ht
    obtain ⟨-, rfl⟩ | ⟨-, _, -, rfl⟩ := replaceImage_ok_iff.mp hr <;> rfl

theorem out_awaitInput (c : Reg) (s : State) : (awaitInput c s).out = s.out := by
  obtain ⟨-, h⟩ | ⟨_, _, -, h⟩ | ⟨_, -, h⟩ := awaitInput_cases c s <;> simp [h]

theorem out_hostAct (a : HostAct) (s : State) : (hostAct a s).out = s.out := by
  cases a <;> rfl

/-- A step that executes no opcode 10 leaves the output, whatever kind of step it is (R193). -/
theorem out_step_of_not_out {s t : State} (hi : ∀ c, nextInstr s ≠ some (.out c)) (h : step s = .next t) :
    t.out = s.out := by
  cases step_cases h with
  | abort _ _ ht | fetchFault _ _ _ ht => subst ht; rfl
  | instr w hs ha hw he =>
    have hne (c : Reg) : decode w ≠ .out c := fun hc => hi c (nextInstr_eq_some.mpr ⟨hs, ha, w, hw, hc⟩)
    exact out_exec_of_not_out (s := advance s) hne he
  | wait c _ _ ht => rw [ht, out_awaitInput]

/-! The output of a step and of a run. -/

theorem out_step {s t : State} (h : step s = .next t) : t.out = s.out ++ emittedNext s := by
  by_cases hi : ∃ c, nextInstr s = some (.out c)
  case neg =>
    have hne (c : Reg) : nextInstr s ≠ some (.out c) := fun hc => hi ⟨c, hc⟩
    rw [out_step_of_not_out hne h, emittedNext_of_not_out hne, List.append_nil]
  case pos =>
    obtain ⟨c, hi⟩ := hi
    rw [step_of_nextInstr hi] at h
    obtain hb | hr := le_or_gt (s.reg c).toNat 255
    · rw [exec_out_of_byte (s := advance s) hb] at h
      cases h
      rw [emittedNext_of_byte hi hb]; rfl
    · rw [exec_out_of_range (s := advance s) hr] at h
      cases h
      rw [emittedNext_of_range hi hr, List.append_nil]; rfl

/-- A run appends the bytes of its steps to the output it starts from (R193). -/
theorem out_of_runEmitting {s t : State} {bs : List Byte} (h : RunEmitting s bs t) : t.out = s.out ++ bs := by
  induction h with
  | refl => exact (List.append_nil _).symm
  | step _ hstep ih => rw [out_step hstep, ih, List.append_assoc]
  | host a _ ih => rw [out_hostAct, ih]

/-- A loaded image is the reset state with some words as page 0 (R240, R241). -/
theorem eq_resetWith_of_load {file : List Byte} {s : State} (h : State.load file = some s) :
    ∃ ws, s = State.resetWith ws := by
  unfold State.load at h
  split at h
  case h_1 ws _ =>
    obtain ⟨-, hs⟩ := Option.ite_none_right_eq_some.mp h
    exact ⟨ws, (Option.some.inj hs).symm⟩
  case h_2 => cases h

/-- Settles O42: each step appends the bytes it emits, so by induction a run appends those of all its steps, and
a loaded image starts with no output. -/
theorem outputIsTheBytesEmittedInOrder : Obligations.OutputIsTheBytesEmittedInOrder := by
  refine ⟨fun s t => out_step, fun file s t bs hload hrun => ?_⟩
  obtain ⟨ws, rfl⟩ := eq_resetWith_of_load hload
  exact out_of_runEmitting hrun

end Sys2Proof.Machine
end

section
/-! SUPPORT. The encoder and the decoder against each other (spec/30_encoding.md R80 to R88, R53): the fields of an encoded
word, what the decoder makes of any word, and the bits an instruction uses as a mask of its opcode and its low bits. -/

namespace Sys2Proof

/-! The fields of an encoded word. -/

section Encode3
variable {op : Nat} (a b c : Reg) (h : op < 16)
include h

theorem fieldA_encode3 : fieldA (encode3 op a b c) = a := by
  have hb := b.isLt; have hc := c.isLt
  ext; rw [fieldA_val, encode3_toNat op a b c h]; omega

theorem fieldB_encode3 : fieldB (encode3 op a b c) = b := by
  have hc := c.isLt
  ext; rw [fieldB_val, encode3_toNat op a b c h]; omega

theorem fieldC_encode3 : fieldC (encode3 op a b c) = c := by
  ext; rw [fieldC_val, encode3_toNat op a b c h]; omega

end Encode3

theorem fieldAi_encodeImm (ai : Reg) (imm : Word) : fieldAi (encodeImm ai imm) = ai := by
  have := ai.isLt
  ext; rw [fieldAi_val, encodeImm_toNat]; omega

theorem fieldImm_encodeImm (ai : Reg) {imm : Word} (h : imm.toNat < 2 ^ 25) : fieldImm (encodeImm ai imm) = imm := by
  apply BitVec.eq_of_toNat_eq
  rw [fieldImm_toNat, encodeImm_toNat]; omega

theorem imm_lt_of_wf {ai : Reg} {imm : Word} (h : (Instr.li ai imm).wf = true) : imm.toNat < 2 ^ 25 :=
  Nat.lt_succ_of_le (Machine.imm_le_of_wf h)

/-- The opcode selects the instruction's own case of the decoder, and each field reads back (R82 to R84, R88). -/
theorem decode_encode {i : Instr} (hwf : i.wf = true) : decode (encode i) = i := by
  cases i with
  | li ai imm =>
    have hop : opField (encodeImm ai imm) = 13 := Laws.EncodeMatch.li ai imm
    simp [decode, encode, hop, fieldAi_encodeImm, fieldImm_encodeImm ai (imm_lt_of_wf hwf)]
  | _ => simp [decode, encode, Laws.EncodeMatch.of_encode3, fieldA_encode3, fieldB_encode3, fieldC_encode3]

/-! The bytes of a word. -/

/-- A word is put together again from its four big-endian bytes (R53). -/
theorem beWord_beBytes (w : Word) :
    beWord (w.extractLsb' 24 8) (w.extractLsb' 16 8) (w.extractLsb' 8 8) (w.extractLsb' 0 8) = w := by
  have hw := w.isLt
  apply BitVec.eq_of_toNat_eq
  simp only [beWord_toNat, BitVec.extractLsb'_toNat, Nat.shiftRight_eq_div_pow]
  omega

theorem decodeBytes_beBytes (w : Word) (rest : List Byte) :
    decodeBytes (beBytes w ++ rest) = .ok (decode w, rest) := by
  simp [beBytes, decodeBytes, beWord_beBytes]

/-- Settles O6: the fields of an encoded word read back as the instruction's own, and its four bytes put together are
that word. -/
theorem decodeOfEncodeIsTheInstruction : Obligations.DecodeOfEncodeIsTheInstruction :=
  fun i hwf => ⟨decode_encode hwf, fun rest => by rw [decodeBytes_beBytes, decode_encode hwf]⟩

/-- Settles O5: every word of the encoder is one of its two layouts, each a sum of its fields. -/
theorem encodeWritesTheLayoutFields : Obligations.EncodeWritesTheLayoutFields := by
  intro i hwf
  cases i with
  | li ai imm => simp only [encode, encodeImm_toNat, Nat.mod_eq_of_lt (imm_lt_of_wf hwf)]
  | _ => simp [encode, encode3_toNat]

/-! The instruction of any word. -/

theorem opField_lt (w : Word) : opField w < 16 := by
  have := w.isLt
  rw [opField_eq]; omega

theorem opcode_decode (w : Word) : (decode w).opcode = opField w := by
  have hlt := opField_lt w
  unfold decode
  interval_cases opField w <;> rfl

/-- Only opcode 13 has a check, and the immediate field is 25 bits wide (R83, R86). -/
theorem wf_decode (w : Word) : (decode w).wf = true := by
  have himm : immFits (fieldImm w) = true := by
    have hlt : w.toNat % 2 ^ 25 < 2 ^ 25 := Nat.mod_lt _ (by decide)
    simpa [immFits, fieldImm_toNat] using hlt
  unfold decode
  split
  case h_14 => exact himm
  all_goals rfl

/-- Settles O9: the decoder's case carries the opcode it was selected by, and its immediate is a 25-bit field. -/
theorem everyWordIsAnInstruction : Obligations.EveryWordIsAnInstruction :=
  fun w => ⟨wf_decode w, (opcode_decode w).trans (opField_eq w)⟩

/-- Settles O10: the vectors are fixed words, so the decoder is run on each. -/
theorem theSpecsWordsDecode : Obligations.TheSpecsWordsDecode := by
  unfold Obligations.TheSpecsWordsDecode
  decide

/-! The bits an instruction uses. -/

/-- How many of the low bits of a word its instruction uses: the fields of R88 stand there without a gap. -/
def usedLowBits : Instr → Nat
  | .cmov _ _ _ | .ld _ _ _ | .st _ _ _ | .add _ _ _ | .mul _ _ _ | .div _ _ _ | .nand _ _ _ => 9
  | .alloc _ _ | .loadprog _ _ => 6
  | .free _ | .out _ | .inp _ => 3
  | .li _ _ => 28
  | .halt | .unk14 | .unk15 => 0

/-- The used bits are the opcode's four and the low ones (R85, R88). -/
theorem usedBits_toNat (w : Word) :
    (usedBits w).toNat = 15 * 2 ^ 28 + (2 ^ usedLowBits (decode w) - 1) := by
  have hlt := opField_lt w
  unfold usedBits decode
  interval_cases opField w <;> simp [usedLowBits]

theorem usedLowBits_le (i : Instr) : usedLowBits i ≤ 28 := by
  cases i <;> simp [usedLowBits]

/-- A mask of the opcode and of k low bits keeps the quotient and the remainder it masks. -/
theorem and_opcodeMask_toNat (w : Word) {m : Word} {k : Nat} (hk : k ≤ 28) (hm : m.toNat = 15 * 2 ^ 28 + (2 ^ k - 1)) :
    (w &&& m).toNat = w.toNat / 2 ^ 28 * 2 ^ 28 + w.toNat % 2 ^ k := by
  have hw := w.isLt
  have hpow : 2 ^ k ≤ 2 ^ 28 := Nat.pow_le_pow_right (by decide) hk
  have hpos := Nat.two_pow_pos k
  have hhigh : (w &&& m).toNat / 2 ^ 28 = w.toNat / 2 ^ 28 := by
    have hdiv : m.toNat / 2 ^ 28 = 2 ^ 4 - 1 := by omega
    rw [BitVec.toNat_and, Nat.and_div_two_pow, hdiv, Nat.and_two_pow_sub_one_eq_mod]
    omega
  have hlow : (w &&& m).toNat % 2 ^ 28 = w.toNat % 2 ^ k := by
    have hmod : m.toNat % 2 ^ 28 = 2 ^ k - 1 := by omega
    rw [BitVec.toNat_and, Nat.and_mod_two_pow, hmod, Nat.and_two_pow_sub_one_eq_mod,
      Nat.mod_mod_of_dvd _ (Nat.pow_dvd_pow 2 hk)]
  omega

/-- The encoder writes back the fields the decoder read, which are the used bits, and 0 elsewhere (R85, R88, R89). -/
theorem encode_decode (w : Word) : encode (decode w) = w &&& usedBits w := by
  apply BitVec.eq_of_toNat_eq
  rw [and_opcodeMask_toNat w (usedLowBits_le _) (usedBits_toNat w), ← opField_eq]
  have hlt := opField_lt w
  unfold decode
  interval_cases opField w <;>
    simp [encode, encode3_toNat, encodeImm_toNat, usedLowBits, fieldA_val, fieldB_val, fieldC_val, fieldAi_val,
      fieldImm_toNat]
  all_goals omega

/-- Settles O7: encoding what was decoded writes the used bits back and nothing else. -/
theorem encodeOfDecodeClearsIgnoredBits : Obligations.EncodeOfDecodeClearsIgnoredBits := encode_decode

theorem usedBits_congr {w v : Word} (h : opField w = opField v) : usedBits w = usedBits v := by
  simp only [usedBits, h]

/-- Settles O8: the instruction decides the opcode and, encoded again, the used bits; these decide the instruction,
for decoding them gives it back. -/
theorem sameInstructionIffSameUsedBits : Obligations.SameInstructionIffSameUsedBits := by
  intro w v
  constructor
  · intro h
    have hop : opField w = opField v := by rw [← opcode_decode, ← opcode_decode, h]
    refine ⟨hop, ?_⟩
    rw [← encode_decode, h, encode_decode, usedBits_congr hop]
  · rintro ⟨hop, hused⟩
    rw [← decode_encode (wf_decode w), ← decode_encode (wf_decode v), encode_decode, encode_decode, hused,
      usedBits_congr hop]

end Sys2Proof
end

section
/-! SUPPORT. The step and the host (spec/43_control.md R170 and R176; spec/44_io.md R191 and R192; spec/60_exceptions.md
R218): one equation per kind of step, and the statements about a single step. -/

namespace Sys2Proof.Machine

/-! The step by the status, the fetch and the host's answers. -/

theorem step_of_faulted {s : State} (hs : s.status = .faulted) : step s = .fault .runFaulted := by
  simp [step, hs]

theorem step_of_aborted {s : State} (hs : s.status = .aborted) : step s = .fault .runAborted := by
  simp [step, hs]

theorem step_of_abortReq {s : State} (ha : s.abortReq = true) (ho : s.status.over = false) :
    step s = .next (takeAbort s) := by
  cases hs : s.status with
  | running | waitInput => simp [step, hs, ha]
  | halted | faulted | aborted => simp [hs, Status.over] at ho

theorem step_of_waitInput {c : Reg} {s : State} (hs : s.status = .waitInput c) (ha : s.abortReq = false) :
    step s = .next (awaitInput c s) := by
  simp [step, hs, ha]

/-- Where the run is not over the step answers a next state: no instruction stops it (R176; log entry 10). -/
theorem step_next_of_not_over {s : State} (ho : s.status.over = false) : ∃ t, step s = .next t := by
  cases ha : s.abortReq with
  | true => exact ⟨_, step_of_abortReq ha ho⟩
  | false =>
    cases hs : s.status with
    | running =>
      cases hw : s.wordAt 0#32 s.pc with
      | none => exact ⟨_, step_of_no_word hs ha hw⟩
      | some w => exact step_of_word hs ha hw ▸ exec_next (decode w) (advance s)
    | waitInput c => exact ⟨_, step_of_waitInput hs ha⟩
    | halted | faulted | aborted => simp [hs, Status.over] at ho

theorem awaitInput_of_no_answer (c : Reg) {s : State} (h : s.hostInput = []) : awaitInput c s = s := by
  simp [awaitInput, h]

theorem awaitInput_of_byte (c : Reg) {s : State} {b : Byte} {rest : List InResp} (h : s.hostInput = .byte b :: rest) :
    awaitInput c s = inputByte c b { s with status := .running, hostInput := rest } := by
  simp [awaitInput, h]

theorem awaitInput_of_eof (c : Reg) {s : State} {rest : List InResp} (h : s.hostInput = .eof :: rest) :
    awaitInput c s = inputEof c { s with status := .running, hostInput := rest } := by
  simp [awaitInput, h]

/-! The fetch. -/

/-- No word at or beyond the length of a page (R57). -/
theorem wordAt_eq_none_of_size_le {s : State} {id k n : Word} (hn : s.pageSize id = some n) (hk : n ≤ k) :
    s.wordAt id k = none := by
  obtain ⟨p, hp, rfl⟩ := pageSize_eq_some.mp hn
  simp [State.wordAt, hp, Page.read_eq_none.mpr hk]

/-- Settles O11: the decoder's instruction is well-formed, and a running block's step executes it. -/
theorem stepRunsTheDecodedInstruction : Obligations.StepRunsTheDecodedInstruction :=
  fun _ w hs ha hw => ⟨wf_decode w, step_of_word hs ha hw⟩

/-- Settles O12: page 0 has no word there, so the step is the fetch fault. -/
theorem fetchBeyondTheImageFaults : Obligations.FetchBeyondTheImageFaults :=
  fun _ _ hs ha hn hk => step_of_no_word hs ha (wordAt_eq_none_of_size_le hn hk)

/-- Settles O13: a word at the pc puts the pc below the length of page 0, which is itself a 32-bit word. -/
theorem theAdvanceNeverWraps : Obligations.TheAdvanceNeverWraps := by
  intro s w hw
  obtain ⟨n, -, hlt⟩ := wordAt_isSome_iff.mp (Option.isSome_of_eq_some hw)
  have hn := n.isLt
  rw [BitVec.lt_def] at hlt
  exact BitVec.toNat_add_of_lt (show s.pc.toNat + 1 < 2 ^ 32 by omega)

/-- Settles O14: each final status has its own stop, and every other status answers a next state. -/
theorem stepStopsExactlyWhenTheRunIsOver : Obligations.StepStopsExactlyWhenTheRunIsOver := by
  intro s
  cases hs : s.status with
  | running | waitInput =>
    obtain ⟨t, ht⟩ := step_next_of_not_over (s := s) (by simp [hs, Status.over])
    simp [ht]
  | halted => simp [step_of_halted hs, Status.over]
  | faulted => simp [step_of_faulted hs, Status.over]
  | aborted => simp [step_of_aborted hs, Status.over]

/-- Settles O45: the request is looked at before the fetch and before the host's answer. -/
theorem theAbortIsTakenBetweenSteps : Obligations.TheAbortIsTakenBetweenSteps :=
  fun _ ha ho => step_of_abortReq ha ho

/-! Output and input. -/

/-- Settles O38: the range check decides between the emitted byte and the fault. -/
theorem outEmitsOneByteOrFaults : Obligations.OutEmitsOneByteOrFaults :=
  ⟨hasOpcode_of_opField fun w hw => by simp [decode, hw],
    fun _ _ => ⟨exec_out_of_byte, fun h => faultsWith_of_raise (exec_out_of_range h)⟩⟩

theorem exec_inp_of_eof {c : Reg} {s : State} (h : s.inEOF = true) :
    exec (.inp c) s = .next (s.setReg c Config.eofSentinel) := by
  simp [exec, execInp, h]

theorem exec_inp_of_not_eof {c : Reg} {s : State} (h : s.inEOF = false) :
    exec (.inp c) s = .next (requestInput c s) := by
  simp [exec, execInp, h]

/-- Settles O39: whether end-of-stream has been seen decides between the sentinel and the request. -/
theorem inReadsTheSentinelOrWaits : Obligations.InReadsTheSentinelOrWaits := by
  refine ⟨hasOpcode_of_opField fun w hw => by simp [decode, hw], fun c s => ⟨fun h => ?_, exec_inp_of_not_eof⟩⟩
  exact ⟨_, exec_inp_of_eof h, reg_setReg_self _ _ _, onlyReg_setReg _ _ _⟩

/-- Settles O40: the step of a wait is `awaitInput`, and the first of the host's answers says which of its three outcomes
it has. -/
theorem theHostsAnswerCompletesIn : Obligations.TheHostsAnswerCompletesIn := by
  intro c s hs ha
  refine ⟨fun h => ?noAnswer, fun b rest h => ⟨_, step_of_waitInput hs ha, ?byte⟩,
    fun rest h => ⟨_, step_of_waitInput hs ha, ?eof⟩⟩
  case noAnswer => rw [step_of_waitInput hs ha, awaitInput_of_no_answer c h]
  case byte =>
    rw [awaitInput_of_byte c h]
    refine ⟨?_, fun r hr => reg_setReg_of_ne _ _ _ hr, rfl⟩
    rw [inputByte, reg_setReg_self, BitVec.toNat_setWidth_of_le (by decide)]
  case eof =>
    rw [awaitInput_of_eof c h]
    exact ⟨reg_setReg_self _ _ _, fun r hr => reg_setReg_of_ne _ _ _ hr, rfl⟩

end Sys2Proof.Machine
end

section
/-! SUPPORT. The allocation (spec/42_page_alloc.md R150, R151 and the laws (a) and (b) of R154): one equation per outcome
of opcode 8, the memory it leaves, and the statements from these. -/

namespace Sys2Proof.Machine

/-! The outcomes of opcode 8. -/

theorem exec_alloc_of_ok (b : Reg) {c : Reg} {s u : State} {id : Word} (h : allocate (s.reg c) s = .ok (id, u)) :
    exec (.alloc b c) s = .next (u.setReg b id) := by
  simp only [exec, execAlloc, h, orRaise_ok]

theorem exec_alloc_of_error (b : Reg) {c : Reg} {s : State} {e : Cause} (h : allocate (s.reg c) s = .error e) :
    exec (.alloc b c) s = .next (raise e s) := by
  simp only [exec, execAlloc, h, orRaise_error]

/-- An allocation from the free list takes its head (R151). -/
theorem allocate_of_freed {s : State} {size id : Word} {rest : List Word} (hh : hostCanAllocate s size = true)
    (hf : s.freeList = id :: rest) :
    allocate size s = .ok (id, State.setPage { s with freeList := rest } id (Page.zeroed size)) :=
  allocate_ok_iff.mpr ⟨hh, _, newId_eq_some.mpr (.inl ⟨hf, rfl⟩), rfl⟩

/-- An allocation with nothing freed takes the counter's value (R151). -/
theorem allocate_of_fresh {s : State} {size : Word} (hh : hostCanAllocate s size = true) (hf : s.freeList = [])
    (hn : s.nextId < 2 ^ 32) :
    allocate size s = .ok (BitVec.ofNat 32 s.nextId,
      State.setPage { s with nextId := s.nextId + 1 } (BitVec.ofNat 32 s.nextId) (Page.zeroed size)) :=
  allocate_ok_iff.mpr ⟨hh, _, newId_eq_some.mpr (.inr ⟨hf, hn, rfl, rfl⟩), rfl⟩

/-! The memory after an allocation. -/

section Allocated
variable {s u : State} {size id : Word} (h : allocate size s = .ok (id, u))
include h

theorem pages_allocate : u.pages = (s.setPage id (Page.zeroed size)).pages := by
  obtain ⟨-, v, hv, rfl⟩ := allocate_ok_iff.mp h
  obtain ⟨-, hv⟩ | ⟨-, -, -, hv⟩ := newId_eq_some.mp hv <;> rw [hv] <;> rfl

theorem pageSize_allocate (j : Word) : u.pageSize j = if j = id then some size else s.pageSize j := by
  rw [pageSize_congr (pages_allocate h), pageSize_setPage, Page.zeroed_size]

theorem wordAt_allocate (j k : Word) : u.wordAt j k = if j = id then (Page.zeroed size).read k else s.wordAt j k := by
  rw [wordAt_congr (pages_allocate h), wordAt_setPage]

/-- The new page is zero-filled, and every other page, register and field is as before (R150). -/
theorem allocFrame_of_allocate (b : Reg) : AllocFrame b size s (u.setReg b id) := by
  have hu := allocate_ok_frame h
  unfold AllocFrame
  rw [reg_setReg_self]
  refine ⟨?size, fun k hk => ?words, fun j hj => ⟨?otherSize, fun k => ?otherWords⟩, fun r hr => ?regs, ?fields⟩
  case size => exact (pageSize_allocate h id).trans (if_pos rfl)
  case words => exact (wordAt_allocate h id k).trans (by simp [hk])
  case otherSize => exact (pageSize_allocate h j).trans (if_neg hj)
  case otherWords => exact (wordAt_allocate h j k).trans (if_neg hj)
  case regs => rw [reg_setReg_of_ne _ _ _ hr, hu]; rfl
  case fields => rw [hu]; rfl

end Allocated

/-- Settles O26: the free list decides between its head and the counter's value, and every allocation leaves the same
frame. -/
theorem allocGivesAZeroFilledPage : Obligations.AllocGivesAZeroFilledPage := by
  refine ⟨hasOpcode_of_opField fun w hw => by simp [decode, hw],
    fun b c s hh => ⟨fun id rest hf => ?freed, fun hf hn => ?fresh⟩⟩
  case freed =>
    have ha := allocate_of_freed hh hf
    exact ⟨_, exec_alloc_of_ok b ha, reg_setReg_self _ _ _, rfl, rfl, allocFrame_of_allocate ha b⟩
  case fresh =>
    have ha := allocate_of_fresh hh hf hn
    refine ⟨_, exec_alloc_of_ok b ha, ?_, hf, rfl, allocFrame_of_allocate ha b⟩
    rw [reg_setReg_self, BitVec.toNat_ofNat, Nat.mod_eq_of_lt hn]

/-- Settles O27: either a host that cannot allocate or a `NewId` with no identifier left makes the allocation fail. -/
theorem allocFaultsWhenMemoryIsOut : Obligations.AllocFaultsWhenMemoryIsOut := by
  intro b c s
  have fails (h : hostCanAllocate s (s.reg c) = false ∨ newId s = none) :
      FaultsWith (.outOfMemory (s.reg c)) (.alloc b c) s :=
    faultsWith_of_raise (exec_alloc_of_error b (allocate_error_iff.mpr ⟨rfl, h⟩))
  exact ⟨fun hh => fails (.inl hh), fun hf hn => fails (.inr (newId_eq_none.mpr ⟨hf, hn.ge⟩))⟩

/-- Settles O30: a freeing puts its identifier at the head of the free list, and an allocation takes the head. -/
theorem freedIdentifiersAreReusedLastInFirstOut : Obligations.FreedIdentifiersAreReusedLastInFirstOut := by
  constructor
  · intro b c d s h0 hp
    refine ⟨_, exec_free_of_present h0 hp, fun hh => ?_⟩
    exact ⟨_, exec_alloc_of_ok b (allocate_of_freed hh rfl), reg_setReg_self _ _ _, rfl, rfl⟩
  · intro b₁ b₂ c₁ c₂ d₁ d₂ s h1 h2 hne hp1 hp2
    have hp2' : (freed (s.reg c₁) s).pageSize (s.reg c₂) ≠ none := by rwa [pageSize_freed, if_neg hne.symm]
    refine ⟨_, _, exec_free_of_present h1 hp1, exec_free_of_present (s := freed (s.reg c₁) s) h2 hp2', fun hh₁ => ?_⟩
    refine ⟨_, exec_alloc_of_ok b₁ (allocate_of_freed hh₁ rfl), reg_setReg_self _ _ _, fun hh₂ => ?_⟩
    exact ⟨_, exec_alloc_of_ok b₂ (allocate_of_freed hh₂ rfl), reg_setReg_self _ _ _⟩

end Sys2Proof.Machine
end

section
/-! SUPPORT. What a step leaves unchanged and what it can do to the status and to the memory (spec/10_state.md R21 to R34;
spec/60_exceptions.md R213), said once for an instruction and once for a step, and the whole-machine statements from
these. -/

namespace Sys2Proof.Machine

/-! The frame of an instruction. -/

/-- What instruction `i` leaves unchanged, field by field, whether it faults or not. -/
structure ExecFrame (i : Instr) (s t : State) : Prop where
  regs : ∀ r, destReg i ≠ some r → t.reg r = s.reg r
  pc : (∀ b c, i ≠ .loadprog b c) → t.pc = s.pc
  imageVer : (∀ b c, i ≠ .loadprog b c) → t.imageVer = s.imageVer
  inEOF : t.inEOF = s.inEOF
  hostGrants : t.hostGrants = s.hostGrants

/-- The frame holds of a change that touches none of its fields. -/
theorem execFrame_of_eq {i : Instr} {s t : State}
    (h : t = { s with pages := t.pages, freeList := t.freeList, status := t.status, fault := t.fault, out := t.out }) :
    ExecFrame i s t := by
  rw [h]
  exact ⟨fun _ _ => rfl, fun _ => rfl, fun _ => rfl, rfl, rfl⟩

theorem exec_frame {i : Instr} {s t : State} (h : exec i s = .next t) : ExecFrame i s t := by
  cases exec_cases h with
  | fault _ _ ht | same _ ht | halt _ ht | out _ _ _ _ ht | request _ _ _ ht => subst ht; exact execFrame_of_eq rfl
  | store _ _ _ _ hw => rw [pageWrite_ok_frame hw]; exact execFrame_of_eq rfl
  | free _ _ hr => obtain ⟨-, -, rfl⟩ := release_ok_iff.mp hr; exact execFrame_of_eq rfl
  | reg r v hr ht =>
    subst ht
    exact ⟨fun q hq => reg_setReg_of_ne s r v fun e => hq (e ▸ hr), fun _ => rfl, fun _ => rfl, rfl, rfl⟩
  | alloc b c id u hi hu ht =>
    subst hi ht
    rw [allocate_ok_frame hu]
    exact ⟨fun q hq => reg_setReg_of_ne _ b id fun e => hq (congrArg some e.symm), fun _ => rfl, fun _ => rfl, rfl, rfl⟩
  | jump b c u hi hr ht =>
    subst hi ht
    obtain ⟨-, rfl⟩ | ⟨-, p, -, rfl⟩ := replaceImage_ok_iff.mp hr <;>
      exact ⟨fun _ _ => rfl, fun hne => absurd rfl (hne b c), fun hne => absurd rfl (hne b c), rfl, rfl⟩

/-- The outcomes of opcode 12: its fault, the jump alone, and the replacement (R172). -/
theorem exec_loadprog_cases {b c : Reg} {s t : State} (h : exec (.loadprog b c) s = .next t) :
    (s.pageSize (s.reg b) = none ∧ ∃ e, t = raise e s) ∨ (s.reg b = 0#32 ∧ t = s.setPc (s.reg c)) ∨
      ∃ p, s.reg b ≠ 0#32 ∧ s.page (s.reg b) = some p ∧ t = replaced p (s.reg c) s := by
  by_cases h0 : s.reg b = 0#32
  · rw [exec_loadprog_of_zero c h0] at h
    cases h; exact .inr (.inl ⟨h0, rfl⟩)
  · cases hp : s.page (s.reg b) with
    | none =>
      have hn := pageSize_eq_none.mpr hp
      rw [exec_loadprog_of_absent c h0 hn] at h
      cases h; exact .inl ⟨hn, _, rfl⟩
    | some p =>
      rw [exec_loadprog_of_page c h0 hp] at h
      cases h; exact .inr (.inr ⟨p, h0, rfl, rfl⟩)

/-! The status after an instruction. -/

/-- What an instruction does to the status (R29): it faults, keeps it, halts, or begins the input wait. -/
inductive ExecStatus (i : Instr) (s t : State) : Prop where
  | faulted (c : Cause) (hc : c ≠ .noFault) (ht : t = raise c s)
  | kept (ht : t.status = s.status)
  | halted (hi : i = .halt) (ht : t.status = .halted)
  | requested (c : Reg) (hi : i = .inp c) (he : s.inEOF = false) (ht : t.status = .waitInput c)

theorem exec_status {i : Instr} {s t : State} (h : exec i s = .next t) : ExecStatus i s t := by
  cases exec_cases h with
  | fault c hc ht => exact .faulted c hc ht
  | halt hi ht => exact .halted hi (by subst ht; rfl)
  | request c hi he ht => exact .requested c hi he (by subst ht; rfl)
  | same _ ht | reg _ _ _ ht | out _ _ _ _ ht => exact .kept (by subst ht; rfl)
  | store _ _ _ _ hw => exact .kept (by rw [pageWrite_ok_frame hw])
  | alloc _ _ _ _ _ hu ht => exact .kept (by rw [ht, allocate_ok_frame hu]; rfl)
  | free _ _ hr => exact .kept (by obtain ⟨-, -, rfl⟩ := release_ok_iff.mp hr; rfl)
  | jump _ _ _ _ hr ht =>
    subst ht
    obtain ⟨-, rfl⟩ | ⟨-, _, -, rfl⟩ := replaceImage_ok_iff.mp hr <;> exact .kept rfl

theorem raise_of_exec_faulted {i : Instr} {s t : State} (hs : s.status = .running) (h : exec i s = .next t)
    (ht : t.status = .faulted) : ∃ c, c ≠ .noFault ∧ t = raise c s := by
  cases exec_status h with
  | faulted c hc hr => exact ⟨c, hc, hr⟩
  | kept hk | halted _ hk | requested _ _ _ hk => simp [hk, hs] at ht

/-! The step by the instruction it executes. -/

/-- A step executes an instruction, or takes the abort, a fetch fault or the input wait, which leave the pc, the memory,
the allocator, the image version and the output. -/
theorem step_instr_or_idle {s t : State} (h : step s = .next t) :
    (∃ i, nextInstr s = some i ∧ exec i (advance s) = .next t) ∨
      (nextInstr s = none ∧ t = { s with regs := t.regs, status := t.status, fault := t.fault, inEOF := t.inEOF,
                                         hostInput := t.hostInput, abortReq := t.abortReq }) := by
  cases hi : nextInstr s with
  | some i => exact .inl ⟨i, rfl, step_of_nextInstr hi ▸ h⟩
  | none =>
    refine .inr ⟨rfl, ?_⟩
    cases step_cases h with
    | abort _ _ ht | fetchFault _ _ _ ht => subst ht; rfl
    | instr w hs ha hw _ => simp [nextInstr_eq_some.mpr ⟨hs, ha, w, hw, rfl⟩] at hi
    | wait c _ _ ht =>
      subst ht
      obtain ⟨-, he⟩ | ⟨_, _, -, he⟩ | ⟨_, -, he⟩ := awaitInput_cases c s <;> rw [he] <;> rfl

/-! The status after a step. -/

/-- The statuses a step can leave, with what each of them says of the state before. -/
inductive StepStatus (s t : State) : Prop where
  | aborted (ht : t.status = .aborted) (ha : s.abortReq = true)
  | faulted (ht : t.status = .faulted)
  | halted (ht : t.status = .halted) (hi : nextInstr s = some .halt)
  | requested (c : Reg) (ht : t.status = .waitInput c) (hi : nextInstr s = some (.inp c)) (he : s.inEOF = false)
  | unanswered (c : Reg) (hs : s.status = .waitInput c) (hin : s.hostInput = []) (ht : t = s)
  | answered (c : Reg) (ht : t.status = .running) (hs : s.status = .waitInput c) (hin : s.hostInput ≠ [])
  | ran (ht : t.status = .running) (hs : s.status = .running)

theorem step_status {s t : State} (h : step s = .next t) : StepStatus s t := by
  cases step_cases h with
  | abort _ ha ht => exact .aborted (by rw [ht]; rfl) ha
  | fetchFault _ _ _ ht => exact .faulted (by rw [ht]; rfl)
  | instr w hs ha hw he =>
    have hi (i : Instr) (hd : decode w = i) : nextInstr s = some i := nextInstr_eq_some.mpr ⟨hs, ha, w, hw, hd⟩
    cases exec_status he with
    | faulted _ _ ht => exact .faulted (by rw [ht]; rfl)
    | kept hk => exact .ran (hk.trans hs) hs
    | halted hd ht => exact .halted ht (hi _ hd)
    | requested c hd heof ht => exact .requested c ht (hi _ hd) heof
  | wait c hs _ ht =>
    obtain ⟨hin, he⟩ | ⟨_, _, hin, he⟩ | ⟨_, hin, he⟩ := awaitInput_cases c s
    · exact .unanswered c hs hin (ht.trans he)
    all_goals exact .answered c (by rw [ht, he]; rfl) hs (by simp [hin])

/-- Settles O15: each status a step can leave names where it came from. -/
theorem statusChangesOnlyAsDescribed : Obligations.StatusChangesOnlyAsDescribed := by
  intro s t h
  cases step_status h with
  | aborted ht ha => simp [ht, ha]
  | faulted ht => simp [ht]
  | halted ht hi => simp [ht, hi]
  | requested c ht hi he => simp [ht, hi, he]
  | unanswered c hs hin ht => simp [ht, hs, hin]
  | answered c ht hs hin => simp [ht, hs, hin]
  | ran ht hs => simp [ht, hs]

/-- Settles O41: neither an instruction nor the end of a wait takes the mark away, and a wait begins only where it is not
set. -/
theorem endOfStreamPersists : Obligations.EndOfStreamPersists := by
  intro s t h he
  constructor
  · cases step_cases h with
    | abort _ _ ht | fetchFault _ _ _ ht => subst ht; exact he
    | instr _ _ _ _ hx => exact (exec_frame hx).inEOF.trans he
    | wait c _ _ ht =>
      subst ht
      obtain ⟨-, hw⟩ | ⟨_, _, -, hw⟩ | ⟨_, -, hw⟩ := awaitInput_cases c s <;> simp [hw, he]
  · intro hs c ht
    obtain ⟨-, -, hwait, -⟩ := statusChangesOnlyAsDescribed s t h
    obtain ⟨-, hf⟩ | ⟨hw, -⟩ := hwait c ht
    · simp [he] at hf
    · simp [hs] at hw

/-- Settles O44: a step that leaves FAULTED is a fetch fault, or an instruction whose whole effect is `raise` after the
advance. -/
theorem faultsArePrecise : Obligations.FaultsArePrecise := by
  intro s t h hf
  cases step_cases h with
  | abort _ _ ht => subst ht; cases hf
  | fetchFault _ _ hw ht => subst ht; exact ⟨rfl, rfl, by simp [fetchFault], .inl ⟨hw, rfl, rfl⟩⟩
  | instr w hs _ hw hx =>
    obtain ⟨c, hc, rfl⟩ := raise_of_exec_faulted (s := advance s) hs hx hf
    exact ⟨rfl, BitVec.add_sub_cancel s.pc 1#32, hc, .inr ⟨by simp [hw], rfl⟩⟩
  | wait c hs _ ht =>
    subst ht
    rcases awaitInput_status c s with hk | hk <;> simp [hk, hs] at hf

/-! The registers, the pc and the image version. -/

/-- A step that executes no instruction changes no register but the one whose input wait it ends (R21, R192). -/
theorem waitInput_of_reg_ne {s t : State} {r : Reg} (h : step s = .next t) (hi : nextInstr s = none)
    (hr : t.reg r ≠ s.reg r) : s.status = .waitInput r := by
  cases step_cases h with
  | abort _ _ ht | fetchFault _ _ _ ht => subst ht; exact absurd rfl hr
  | instr w hs ha hw _ => simp [nextInstr_eq_some.mpr ⟨hs, ha, w, hw, rfl⟩] at hi
  | wait c hs _ ht =>
    subst ht
    have hrc : r = c := by
      by_contra hne
      apply hr
      obtain ⟨-, he⟩ | ⟨_, _, -, he⟩ | ⟨_, -, he⟩ := awaitInput_cases c s <;> rw [he]
      all_goals exact reg_setReg_of_ne _ _ _ hne
    rw [hs, hrc]

/-- Settles O46: the frame of an instruction leaves every register but its destination, and opcode 0 leaves that one too
where its condition does not hold. -/
theorem onlyTheNamedRegisterChanges : Obligations.OnlyTheNamedRegisterChanges := by
  intro s t r h hr
  obtain ⟨i, hi, hx⟩ | ⟨hi, -⟩ := step_instr_or_idle h
  · refine .inl ⟨i, hi, by_contra fun hd => hr ((exec_frame hx).regs r hd), fun a b c hc h0 => hr ?_⟩
    rw [hc, exec_cmov_of_eq_zero a b (s := advance s) h0] at hx
    cases hx; rfl
  · exact .inr (waitInput_of_reg_ne h hi hr)

/-- Settles O47: the frame keeps the advanced pc for every instruction but opcode 12, which keeps it only in a fault. -/
theorem thePcAdvancesUnlessOpcode12 : Obligations.ThePcAdvancesUnlessOpcode12 := by
  intro s t i hi h
  rw [step_of_nextInstr hi] at h
  by_cases hj : ∃ b c, i = .loadprog b c
  case neg => exact .inl ((exec_frame h).pc fun b c e => hj ⟨b, c, e⟩)
  case pos =>
    obtain ⟨b, c, rfl⟩ := hj
    obtain ⟨hs, -⟩ := nextInstr_eq_some.mp hi
    obtain ⟨-, e, rfl⟩ | ⟨-, rfl⟩ | ⟨p, -, -, rfl⟩ := exec_loadprog_cases h
    · exact .inl rfl
    · exact .inr ⟨b, c, rfl, rfl, hs⟩
    · exact .inr ⟨b, c, rfl, rfl, hs⟩

/-- Settles O48: of the outcomes of opcode 12 the replacement alone counts, and no other step changes the version. -/
theorem theImageVersionCountsReplacements : Obligations.TheImageVersionCountsReplacements := by
  intro s t h
  obtain ⟨i, hi, hx⟩ | ⟨hi, ht⟩ := step_instr_or_idle h
  case inr => exact ⟨fun b c hb => by simp [hi] at hb, fun _ => by rw [ht]⟩
  by_cases hj : ∃ b c, i = .loadprog b c
  case neg =>
    have hne (b c : Reg) : i ≠ .loadprog b c := fun e => hj ⟨b, c, e⟩
    exact ⟨fun b c hb => absurd (Option.some.inj (hi.symm.trans hb)) (hne b c), fun _ => (exec_frame hx).imageVer hne⟩
  case pos =>
    obtain ⟨b, c, rfl⟩ := hj
    obtain ⟨hn, e, rfl⟩ | ⟨h0, rfl⟩ | ⟨p, h0, hp, rfl⟩ := exec_loadprog_cases hx
    · exact ⟨fun _ _ hb _ hp => by rw [hi] at hb; cases hb; exact absurd hn hp, fun _ => rfl⟩
    · exact ⟨fun _ _ hb h0' => by rw [hi] at hb; cases hb; exact absurd h0 h0', fun _ => rfl⟩
    · refine ⟨fun _ _ _ _ _ => rfl, fun hnot => absurd ⟨b, c, hi, h0, ?_⟩ hnot⟩
      exact Option.ne_none_iff_exists'.mpr ⟨_, pageSize_eq_some.mpr ⟨p, hp, rfl⟩⟩

end Sys2Proof.Machine
end

section
/-! SUPPORT. Reset and the image load (spec/10_state.md section 8; spec/70_reset_and_hazards.md R240 and R241): the words of
an image file, when it is loaded, and the state it leaves. -/

namespace Sys2Proof.Machine

/-! The state after reset. -/

theorem reset_eq_resetWith : State.reset = State.resetWith [] := rfl

theorem reg_resetWith (ws : List Word) (r : Reg) : (State.resetWith ws).reg r = 0#32 :=
  Vector.getElem_replicate r.isLt

theorem page_resetWith_zero (ws : List Word) : (State.resetWith ws).page 0#32 = some (Page.ofWords ws) := rfl

theorem pageSize_resetWith_zero (ws : List Word) :
    (State.resetWith ws).pageSize 0#32 = some (BitVec.ofNat 32 ws.length) := rfl

/-- Only page 0 is present after reset (R240). -/
theorem pageSize_resetWith_of_ne (ws : List Word) {id : Word} (h : id ≠ 0#32) :
    (State.resetWith ws).pageSize id = none := by
  have hn : id.toNat ≠ 0 := fun e => h (BitVec.eq_of_toNat_eq e)
  simp [State.pageSize, State.page, State.resetWith, sparseGet, hn]

/-- Settles O1: the reset state is that of the image of no words, and its other fields are written out. -/
theorem resetLeavesTheGivenValues : Obligations.ResetLeavesTheGivenValues := by
  unfold Obligations.ResetLeavesTheGivenValues
  rw [reset_eq_resetWith]
  exact ⟨reg_resetWith [], rfl, pageSize_resetWith_zero [], fun _ => pageSize_resetWith_of_ne [],
    rfl, rfl, rfl, rfl, rfl, rfl⟩

/-! The words of an image file. -/

theorem imageWords_cons (b0 b1 b2 b3 : Byte) (rest : List Byte) :
    imageWords (b0 :: b1 :: b2 :: b3 :: rest) = (imageWords rest).map (beWord b0 b1 b2 b3 :: ·) := by
  rw [imageWords]
  cases imageWords rest <;> rfl

/-- A file has words exactly where its length is a multiple of 4 (R241). -/
theorem imageWords_isSome_iff : ∀ file : List Byte, (imageWords file).isSome ↔ file.length % 4 = 0
  | [] | [_] | [_, _] | [_, _, _] => by simp [imageWords]
  | b0 :: b1 :: b2 :: b3 :: rest => by
    rw [imageWords_cons, Option.isSome_map, imageWords_isSome_iff rest, List.length_cons, List.length_cons,
      List.length_cons, List.length_cons]
    omega

theorem length_imageWords : ∀ {file : List Byte} {ws : List Word}, imageWords file = some ws →
    file.length = 4 * ws.length
  | [], _, h => by cases h; rfl
  | [_], _, h | [_, _], _, h | [_, _, _], _, h => by cases h
  | b0 :: b1 :: b2 :: b3 :: rest, _, h => by
    rw [imageWords_cons, Option.map_eq_some_iff] at h
    obtain ⟨vs, hvs, rfl⟩ := h
    simp only [List.length_cons, length_imageWords hvs]
    omega

/-- Word i of an image file is its bytes 4i to 4i+3, the first the most significant (R53, R241). -/
theorem getElem_imageWords : ∀ {file : List Byte} {ws : List Word}, imageWords file = some ws →
    ∀ i (hi : i < ws.length), ws[i] =
      beWord (file.getD (4 * i) 0#8) (file.getD (4 * i + 1) 0#8) (file.getD (4 * i + 2) 0#8) (file.getD (4 * i + 3) 0#8)
  | [], _, h, i, hi => by cases h; cases hi
  | [_], _, h, _, _ | [_, _], _, h, _, _ | [_, _, _], _, h, _, _ => by cases h
  | b0 :: b1 :: b2 :: b3 :: rest, _, h, i, hi => by
    rw [imageWords_cons, Option.map_eq_some_iff] at h
    obtain ⟨vs, hvs, rfl⟩ := h
    cases i with
    | zero => rfl
    | succ i => exact getElem_imageWords hvs i (Nat.lt_of_succ_lt_succ hi)

/-! The load. -/

theorem load_of_imageWords {file : List Byte} {ws : List Word} (h : imageWords file = some ws)
    (hl : ws.length ≤ 2 ^ 32 - 1) : State.load file = some (State.resetWith ws) := by
  unfold State.load
  rw [h]
  exact if_pos hl

theorem load_eq_none {file : List Byte} (h : ∀ ws, imageWords file = some ws → 2 ^ 32 - 1 < ws.length) :
    State.load file = none := by
  unfold State.load
  split
  case h_1 ws hws => exact if_neg (Nat.not_le.mpr (h ws hws))
  case h_2 => rfl

/-- Settles O2: a file of a multiple of 4 bytes has words, a quarter as many, and it is loaded as the reset state with
these as page 0 unless they are too many. -/
theorem loadedImageGivesTheResetState : Obligations.LoadedImageGivesTheResetState := by
  intro file
  constructor
  · intro hmod hlen
    obtain ⟨ws, hws⟩ := Option.isSome_iff_exists.mp ((imageWords_isSome_iff file).mpr hmod)
    have hl : file.length / 4 = ws.length := by rw [length_imageWords hws]; omega
    rw [hl] at hlen ⊢
    have hlt : ws.length < 2 ^ 32 := by omega
    refine ⟨_, load_of_imageWords hws hlen, pageSize_resetWith_zero ws, fun i hi => ⟨ws[i], ?_, ?_⟩,
      fun _ => pageSize_resetWith_of_ne ws, reg_resetWith ws, rfl, rfl, rfl, rfl, rfl, rfl, rfl⟩
    · exact wordAt_eq_some.mpr ⟨_, page_resetWith_zero ws, Page.read_ofWords hlt i hi⟩
    · rw [getElem_imageWords hws i hi, beWord_toNat]
  · intro h
    refine load_eq_none fun ws hws => ?_
    have hl := length_imageWords hws
    omega

end Sys2Proof.Machine
end

section
/-! SUPPORT. The memory and the allocator under a step (spec/20_memory.md sections 1 and 3; spec/42_page_alloc.md R151 to
R154; spec/10_state.md R28): the four instructions that change them, said once, the invariant through each of them, and the
statements from these. -/

namespace Sys2Proof.Machine

/-! The instructions that change the memory or the allocator. -/

/-- The page table, the free list and the counter are as before. -/
def MemoryKept (s t : State) : Prop := t.pages = s.pages ∧ t.freeList = s.freeList ∧ t.nextId = s.nextId

/-- An instruction's effect on the page table, the free list and the counter, one case per instruction that has one. -/
inductive MemoryEffect (i : Instr) (s t : State) : Prop where
  | store (a b c : Reg) (hi : i = .st a b c) (hw : pageWrite s (s.reg a, s.reg b) (s.reg c) = .ok t)
  | alloc (b c : Reg) (id : Word) (u : State) (hi : i = .alloc b c) (hu : allocate (s.reg c) s = .ok (id, u))
      (ht : t = u.setReg b id)
  | free (c : Reg) (hi : i = .free c) (h0 : s.reg c ≠ 0#32) (hp : s.page (s.reg c) ≠ none) (ht : t = freed (s.reg c) s)
  | replace (b c : Reg) (p : Page) (hi : i = .loadprog b c) (h0 : s.reg b ≠ 0#32) (hp : s.page (s.reg b) = some p)
      (ht : t = replaced p (s.reg c) s)

theorem exec_memory {i : Instr} {s t : State} (h : exec i s = .next t) : MemoryKept s t ∨ MemoryEffect i s t := by
  cases exec_cases h with
  | fault _ _ ht | same _ ht | reg _ _ _ ht | halt _ ht | out _ _ _ _ ht | request _ _ _ ht =>
    subst ht; exact .inl ⟨rfl, rfl, rfl⟩
  | store a b c hi hw => exact .inr (.store a b c hi hw)
  | alloc b c id u hi hu ht => exact .inr (.alloc b c id u hi hu ht)
  | free c hi hr =>
    obtain ⟨h0, hp, ht⟩ := release_ok_iff.mp hr
    exact .inr (.free c hi h0 hp ht)
  | jump b c u hi hr ht =>
    obtain ⟨-, rfl⟩ | ⟨h0, p, hp, rfl⟩ := replaceImage_ok_iff.mp hr
    · subst ht; exact .inl ⟨rfl, rfl, rfl⟩
    · exact .inr (.replace b c p hi h0 hp ht)

theorem step_memory {s t : State} (h : step s = .next t) :
    MemoryKept s t ∨ ∃ i, nextInstr s = some i ∧ MemoryEffect i (advance s) t := by
  obtain ⟨i, hi, hx⟩ | ⟨-, ht⟩ := step_instr_or_idle h
  · exact (exec_memory hx).imp id fun he => ⟨i, hi, he⟩
  · rw [ht]; exact .inl ⟨rfl, rfl, rfl⟩

/-! The identifier and the counter of an allocation. -/

/-- An allocation pops the head of the free list and keeps the counter, or, with nothing freed, takes the counter's value,
which is a word, and counts on (R151). -/
theorem source_of_allocate {s u : State} {size id : Word} (h : allocate size s = .ok (id, u)) :
    (s.freeList = id :: u.freeList ∧ u.nextId = s.nextId) ∨
      (s.freeList = [] ∧ u.freeList = [] ∧ u.nextId = s.nextId + 1 ∧ id = BitVec.ofNat 32 s.nextId ∧
        id.toNat = s.nextId) := by
  obtain ⟨-, v, hv, rfl⟩ := allocate_ok_iff.mp h
  obtain ⟨hf, hv⟩ | ⟨hf, hn, hid, hv⟩ := newId_eq_some.mp hv
  · exact .inl ⟨hf, by rw [hv]; rfl⟩
  · refine .inr ⟨hf, by rw [hv]; exact hf, by rw [hv]; rfl, hid, ?_⟩
    rw [hid, BitVec.toNat_ofNat]; exact Nat.mod_eq_of_lt hn

/-- Settles O33: of the instructions that change the allocator only an allocation touches the counter, and only where
nothing was freed. -/
theorem theCounterOnlyCountsFreshIdentifiers : Obligations.TheCounterOnlyCountsFreshIdentifiers := by
  intro s t h
  obtain ⟨-, -, hn⟩ | ⟨i, hi, he⟩ := step_memory h
  · exact .inl hn
  cases he with
  | store _ _ _ _ hw => exact .inl (by rw [pageWrite_ok_frame hw]; rfl)
  | free _ _ _ _ ht | replace _ _ _ _ _ _ ht => subst ht; exact .inl rfl
  | alloc b c id u hd hu ht =>
    subst hd ht
    obtain ⟨-, hn⟩ | ⟨hf, -, hn, -⟩ := source_of_allocate hu
    · exact .inl hn
    · exact .inr ⟨hn, hf, b, c, hi⟩

/-- Settles O32: of the instructions that change the memory only an allocation makes a page other than page 0 present, the
one whose identifier it hands out. -/
theorem absentPagesReturnOnlyByAllocation : Obligations.AbsentPagesReturnOnlyByAllocation := by
  intro id s t h0 hn h hp
  obtain ⟨hk, -⟩ | ⟨i, hi, he⟩ := step_memory h
  · exact absurd ((pageSize_congr hk id).trans hn) hp
  cases he with
  | store _ _ _ _ hw => exact absurd ((pageSize_pageWrite hw id).trans hn) hp
  | free c _ _ _ ht =>
    subst ht
    rw [pageSize_freed] at hp
    exact absurd (ite_eq_left_iff.mpr fun _ => hn) hp
  | replace _ c p _ _ _ ht =>
    subst ht
    rw [pageSize_replaced, if_neg h0] at hp
    exact absurd hn hp
  | alloc b c id' u hd hu ht =>
    subst hd ht
    have hsize : (u.setReg b id').pageSize id = if id = id' then some (s.reg c) else s.pageSize id :=
      pageSize_allocate hu id
    have hid : id = id' := by
      by_contra hne
      exact hp (by rw [hsize, if_neg hne, hn])
    subst hid
    refine ⟨b, c, hi, reg_setReg_self _ _ _, by rw [hsize, if_pos rfl], ?_⟩
    obtain ⟨hf, -⟩ | ⟨hf, -, -, hid, -⟩ := source_of_allocate hu
    · exact .inl (congrArg List.head? hf)
    · exact .inr ⟨hf, hid⟩

/-! The invariant. -/

/-- The invariant is about the page table, the free list and the counter alone. -/
theorem State.Inv.congr {s t : State} (hs : s.Inv) (hk : MemoryKept s t) : t.Inv := by
  obtain ⟨hp, hf, hn⟩ := hk
  cases s; cases t; cases hp; cases hf; cases hn
  exact { hs with }

theorem State.Inv.page_zero {s : State} (hs : s.Inv) : s.page 0#32 ≠ none := Option.isSome_iff_ne_none.mp hs.image

/-- Putting another page in the place of a present one: the same identifiers stay present (R58, R172). -/
theorem State.Inv.setPage {s : State} {id : Word} {p : Page} (hs : s.Inv) (hid : s.page id ≠ none) (hp : Page.wf p) :
    (s.setPage id p).Inv := by
  have present (n : Nat) : (sparseGet n (s.setPage id p).pages).isSome = (sparseGet n s.pages).isSome := by
    rw [setPage_pages, sparseGet_sparseSet]
    split
    case isTrue hn => subst hn; exact (Option.isSome_iff_ne_none.mpr hid).symm
    case isFalse => rfl
  have absent (n : Nat) (hn : sparseGet n s.pages = none) : sparseGet n (s.setPage id p).pages = none := by
    rw [← Option.not_isSome_iff_eq_none, present, hn]; simp
  exact { hs with
    image := (present 0).trans hs.image
    fresh := fun n hn => absent n (hs.fresh n hn)
    freed := fun j hj => absent j.toNat (hs.freed j hj)
    live := fun n h1 hn hf => (present n).trans (hs.live n h1 hn hf)
    memory := Memory.wf_setPage hs.memory hp }

/-- A freed identifier leaves the present ones and joins the free list (R153). -/
theorem State.Inv.freed_page {s : State} {id : Word} (hs : s.Inv) (h0 : id ≠ 0#32) (hid : s.page id ≠ none) :
    (Machine.freed id s).Inv := by
  have hpages (n : Nat) : sparseGet n (Machine.freed id s).pages = if n = id.toNat then none else sparseGet n s.pages :=
    sparseGet_sparseDrop id.toNat n s.pages
  have absent (n : Nat) (hn : sparseGet n s.pages = none) : sparseGet n (Machine.freed id s).pages = none := by
    rw [hpages, hn, ite_self]
  have hpos : id.toNat ≠ 0 := fun e => h0 (BitVec.eq_of_toNat_eq e)
  have hlt : id.toNat < s.nextId := by_contra fun hn => hid (hs.fresh _ (Nat.not_lt.mp hn))
  exact { hs with
    image := by rw [hpages, if_neg hpos.symm]; exact hs.image
    fresh := fun n hn => absent n (hs.fresh n hn)
    distinct := List.nodup_cons.mpr ⟨fun hm => hid (hs.freed id hm), hs.distinct⟩
    range := List.forall_mem_cons.mpr ⟨⟨Nat.pos_of_ne_zero hpos, hlt⟩, hs.range⟩
    freed := List.forall_mem_cons.mpr ⟨by rw [hpages, if_pos rfl], fun j hj => absent j.toNat (hs.freed j hj)⟩
    live := fun n h1 hn hf => by
      obtain ⟨hne, hf⟩ := List.forall_mem_cons.mp hf
      rw [hpages, if_neg hne.symm]
      exact hs.live n h1 hn hf
    memory := Memory.wf_dropPage hs.memory }

/-- An allocation makes its identifier present, and takes it from the free list or the counter past it (R150, R151). -/
theorem State.Inv.allocate {s u : State} {size id : Word} (hs : s.Inv) (h : allocate size s = .ok (id, u)) : u.Inv := by
  have hpages (n : Nat) : sparseGet n u.pages = if n = id.toNat then some (Page.zeroed size) else sparseGet n s.pages := by
    rw [pages_allocate h, setPage_pages, sparseGet_sparseSet]
  have other {n : Nat} (hne : n ≠ id.toNat) : sparseGet n u.pages = sparseGet n s.pages := by rw [hpages, if_neg hne]
  have present (n : Nat) (hn : n ≠ id.toNat → (sparseGet n s.pages).isSome) : (sparseGet n u.pages).isSome := by
    rw [hpages]
    split
    case isTrue => rfl
    case isFalse hne => exact hn hne
  have memory : Memory.wf u.pages := pages_allocate h ▸ Memory.wf_setPage hs.memory (Page.wf_zeroed size)
  obtain ⟨hf, hn⟩ | ⟨hf, huf, hn, -, hid⟩ := source_of_allocate h
  case inl =>
    have hdistinct := hs.distinct
    have hrange := hs.range
    have hfreed := hs.freed
    rw [hf] at hdistinct hrange hfreed
    obtain ⟨hnew, hdistinct⟩ := List.nodup_cons.mp hdistinct
    obtain ⟨⟨-, hlt⟩, hrange⟩ := List.forall_mem_cons.mp hrange
    obtain ⟨-, hfreed⟩ := List.forall_mem_cons.mp hfreed
    exact {
      image := present 0 fun _ => hs.image
      fresh := fun n hle => (other (by omega)).trans (hs.fresh n (hn ▸ hle))
      distinct := hdistinct
      range := hn ▸ hrange
      freed := fun j hj => (other fun e => hnew (BitVec.eq_of_toNat_eq e ▸ hj)).trans (hfreed j hj)
      live := fun n h1 hle hl => present n fun hne =>
        hs.live n h1 (hn ▸ hle) (hf ▸ List.forall_mem_cons.mpr ⟨hne.symm, hl⟩)
      bound := hn ▸ hs.bound
      positive := hn ▸ hs.positive
      memory := memory }
  case inr =>
    have hbound : s.nextId < Config.idLimit := hid ▸ id.isLt
    exact {
      image := present 0 fun _ => hs.image
      fresh := fun n hle => (other (by omega)).trans (hs.fresh n (by omega))
      distinct := huf ▸ List.nodup_nil
      range := by simp [huf]
      freed := by simp [huf]
      live := fun n h1 hle _ => present n fun hne => hs.live n h1 (by omega) (by simp [hf])
      bound := hn ▸ hbound
      positive := by omega
      memory := memory }

/-- Settles O50: an instruction that changes the memory or the allocator stores to a present page, replaces page 0, frees
a present page or allocates; every other step keeps both. -/
theorem everyStepKeepsTheInvariant : Obligations.EveryStepKeepsTheInvariant := by
  intro s t hs h
  obtain hk | ⟨i, -, he⟩ := step_memory h
  · exact hs.congr hk
  have hadv : (advance s).Inv := hs.congr ⟨rfl, rfl, rfl⟩
  cases he with
  | store a b c _ hw =>
    obtain ⟨p, q, hp, hq, rfl⟩ := pageWrite_ok_iff.mp hw
    exact hadv.setPage (Option.ne_none_iff_exists'.mpr ⟨p, hp⟩) (Page.wf_write (Memory.page_wf hadv.memory hp) hq)
  | alloc b c id u _ hu ht => subst ht; exact (hadv.allocate hu).congr ⟨rfl, rfl, rfl⟩
  | free c _ h0 hp ht => subst ht; exact hadv.freed_page h0 hp
  | replace b c p _ _ hp ht =>
    subst ht
    exact (hadv.setPage hadv.page_zero (Memory.page_wf hadv.memory hp)).congr ⟨rfl, rfl, rfl⟩

/-! The invariant of a run. -/

theorem inv_resetWith {ws : List Word} (hm : Memory.wf (State.resetWith ws).pages) : (State.resetWith ws).Inv where
  image := rfl
  fresh n hn := by
    have hne : n ≠ 0 := Nat.ne_of_gt hn
    simp [State.resetWith, sparseGet, hne]
  distinct := List.nodup_nil
  range := by simp [State.resetWith, State.reset]
  freed := by simp [State.resetWith, State.reset]
  live n h1 hn := absurd hn (Nat.not_lt.mpr h1)
  bound := Nat.two_pow_pos 32
  positive := Nat.le_refl 1
  memory := hm

/-- Settles O3: the reset state is that of the image of no words. -/
theorem resetMeetsInvariant : Obligations.ResetMeetsInvariant := by
  unfold Obligations.ResetMeetsInvariant
  rw [reset_eq_resetWith]
  exact inv_resetWith Memory.wf_reset

theorem inv_load {file : List Byte} {s : State} (h : State.load file = some s) : s.Inv := by
  obtain ⟨ws, rfl⟩ := eq_resetWith_of_load h
  exact inv_resetWith (Memory.wf_load h)

theorem inv_of_reach {s t : State} (hs : s.Inv) (h : Reach s t) : t.Inv := by
  induction h with
  | refl => exact hs
  | step _ hstep ih => exact everyStepKeepsTheInvariant _ _ ih hstep
  | host a _ ih => exact ih.congr (by cases a <;> exact ⟨rfl, rfl, rfl⟩)

/-- Settles O51: a loaded image meets the invariant, every step keeps it, and an act of the host changes nothing that it
speaks of. -/
theorem everyRunOfALoadedImageKeepsTheInvariant : Obligations.EveryRunOfALoadedImageKeepsTheInvariant :=
  fun _ _ _ hload hrun => inv_of_reach (inv_load hload) hrun

end Sys2Proof.Machine
end

section
/-! SUPPORT. The invariant at work (spec/42_page_alloc.md, the laws (d) and (e) of R154; spec/20_memory.md section 3;
spec/60_exceptions.md R211 and R216): the identifiers an allocation can hand out, what can change page 0, the table of
faults, and the host's predicate as a field. -/

namespace Sys2Proof.Machine

/-! The identifier of an allocation. -/

/-- Under the invariant an allocation hands out an identifier that is not 0 and names no present page. -/
theorem unused_of_allocate {s u : State} {size id : Word} (hs : s.Inv) (h : allocate size s = .ok (id, u)) :
    id ≠ 0#32 ∧ s.page id = none := by
  have hpos (h1 : 1 ≤ id.toNat) : id ≠ 0#32 := fun h0 => by simp [h0] at h1
  obtain ⟨hf, -⟩ | ⟨-, -, -, -, hid⟩ := source_of_allocate h
  · have hm : id ∈ s.freeList := by simp [hf]
    exact ⟨hpos (hs.range id hm).1, hs.freed id hm⟩
  · exact ⟨hpos (hid ▸ hs.positive), hs.fresh _ hid.ge⟩

theorem exists_allocate {s : State} {size : Word} (hh : hostCanAllocate s size = true)
    (hleft : s.freeList ≠ [] ∨ s.nextId < 2 ^ 32) : ∃ id u, allocate size s = .ok (id, u) := by
  cases hf : s.freeList with
  | cons id rest => exact ⟨_, _, allocate_of_freed hh hf⟩
  | nil => exact ⟨_, _, allocate_of_fresh hh hf (hleft.resolve_left (not_not_intro hf))⟩

/-- Settles O31: the allocation succeeds, and the invariant says of both its sources that they are unused. -/
theorem allocReturnsAnUnusedIdentifier : Obligations.AllocReturnsAnUnusedIdentifier := by
  intro b c s hs hh hleft
  obtain ⟨id, u, ha⟩ := exists_allocate hh hleft
  obtain ⟨h0, hnone⟩ := unused_of_allocate hs ha
  refine ⟨_, exec_alloc_of_ok b ha, ?_⟩
  rw [reg_setReg_self]
  refine ⟨h0, pageSize_eq_none.mpr hnone, (pageSize_allocate ha id).trans (if_pos rfl), fun hf => ?_⟩
  obtain ⟨hf', -⟩ | ⟨-, -, -, -, hid⟩ := source_of_allocate ha
  · simp [hf] at hf'
  · exact hid

/-! The instructions that change page 0. -/

/-- Settles O49: the effects on the memory name their instructions, and of these a store to another page, a freeing and
an allocation leave page 0, whose identifier the invariant keeps from being handed out. -/
theorem memoryChangesOnlyByItsInstructions : Obligations.MemoryChangesOnlyByItsInstructions := by
  intro s t hs h
  obtain ⟨hk, -⟩ | ⟨i, hi, he⟩ := step_memory h
  · exact ⟨fun hne => absurd hk hne, fun hne => absurd (page_congr hk _) hne⟩
  have hadv : (advance s).Inv := hs.congr ⟨rfl, rfl, rfl⟩
  cases he with
  | store a b c hd hw =>
    subst hd
    refine ⟨fun _ => .inl ⟨a, b, c, hi⟩, fun hne => .inl ⟨a, b, c, hi, by_contra fun h0 => hne ?_⟩⟩
    obtain ⟨p, q, -, -, rfl⟩ := pageWrite_ok_iff.mp hw
    exact (page_setPage _ _ _ q).trans (if_neg (Ne.symm h0))
  | alloc b c id u hd hu ht =>
    subst hd ht
    refine ⟨fun _ => .inr (.inl ⟨b, c, hi⟩), fun hne => absurd ?_ hne⟩
    have hid := (unused_of_allocate hadv hu).1
    exact (page_congr (pages_allocate hu) _).trans ((page_setPage _ _ _ _).trans (if_neg hid.symm))
  | free c hd h0 _ ht =>
    subst hd ht
    exact ⟨fun _ => .inr (.inr (.inl ⟨c, hi⟩)), fun hne => absurd ((page_dropPage _ _ _).trans (if_neg h0.symm)) hne⟩
  | replace b c p hd h0 _ ht =>
    subst hd
    exact ⟨fun _ => .inr (.inr (.inr ⟨b, c, hi⟩)), fun _ => .inr ⟨b, c, hi, h0⟩⟩

/-! The table of faults. -/

theorem accessFault_eq_none {id k : Word} {s : State} : accessFault id k s = none ↔ (s.wordAt id k).isSome := by
  rw [wordAt_isSome_iff]
  cases hn : s.pageSize id with
  | none => simp [accessFault, hn]
  | some n => simp [accessFault, hn]

theorem accessFault_eq_some {id k : Word} {s : State} {c : Cause} (h : accessFault id k s = some c) :
    (s.pageSize id = none ∧ c = .invalidPage id) ∨ ∃ n, s.pageSize id = some n ∧ n ≤ k ∧ c = .memory id k := by
  unfold accessFault at h
  cases hn : s.pageSize id with
  | none => simp [hn] at h; exact .inl ⟨rfl, h.symm⟩
  | some n => simp [hn] at h; exact .inr ⟨n, rfl, h.1, h.2.symm⟩

/-- Under the invariant page 0 is present, so an absent page is one that `Get` reports (R56, R57; log entry 12). -/
theorem State.Inv.ne_zero_of_absent {s : State} {id : Word} (hs : s.Inv) (hn : s.pageSize id = none) : id ≠ 0#32 :=
  fun h0 => hs.page_zero (h0 ▸ pageSize_eq_none.mp hn)

theorem pageRead_of_accessFault {s : State} {id k : Word} {c : Cause} (hs : s.Inv) (h : accessFault id k s = some c) :
    pageRead s (id, k) = .error c := by
  obtain ⟨hn, rfl⟩ | ⟨n, hn, hk, rfl⟩ := accessFault_eq_some h
  · exact pageRead_absent (hs.ne_zero_of_absent hn) hn
  · exact pageRead_outOfRange hn hk

theorem pageWrite_of_accessFault {s : State} {id k : Word} {c : Cause} (v : Word) (hs : s.Inv)
    (h : accessFault id k s = some c) : pageWrite s (id, k) v = .error c := by
  obtain ⟨hn, rfl⟩ | ⟨n, hn, hk, rfl⟩ := accessFault_eq_some h
  · exact pageWrite_absent (hs.ne_zero_of_absent hn) hn
  · exact pageWrite_outOfRange hn hk

/-- Where the table names a fault the instruction takes it (R211). -/
theorem exec_of_faultOf {i : Instr} {s : State} {e : Cause} (hs : s.Inv) (h : faultOf i s = some e) :
    exec i s = .next (raise e s) := by
  cases i with
  | ld a b c => exact exec_ld_of_error a (pageRead_of_accessFault hs h)
  | st a b c => exact exec_st_of_error (pageWrite_of_accessFault _ hs h)
  | div a b c =>
    obtain ⟨h0, he⟩ := Option.ite_none_right_eq_some.mp h
    cases he; exact exec_div_of_eq_zero a b h0
  | alloc b c =>
    have herr : e = .outOfMemory (s.reg c) ∧ (hostCanAllocate s (s.reg c) = false ∨ newId s = none) := by
      simp only [faultOf] at h
      split at h
      case isTrue hh => cases h; exact ⟨rfl, .inl hh⟩
      case isFalse =>
        obtain ⟨⟨hf, hn⟩, he⟩ := Option.ite_none_right_eq_some.mp h
        cases he; exact ⟨rfl, .inr (newId_eq_none.mpr ⟨hf, hn.ge⟩)⟩
    exact exec_alloc_of_error b (allocate_error_iff.mpr herr)
  | free c =>
    obtain ⟨h0, he⟩ := Option.ite_none_right_eq_some.mp h
    cases he; exact exec_free_of_invalid h0
  | out c =>
    obtain ⟨h0, he⟩ := Option.ite_none_right_eq_some.mp h
    cases he; exact exec_out_of_range h0
  | loadprog b c =>
    obtain ⟨⟨h0, hn⟩, he⟩ := Option.ite_none_right_eq_some.mp h
    cases he; exact exec_loadprog_of_absent c h0 hn
  | cmov | add | mul | nand | halt | inp | li | unk14 | unk15 => cases h

/-- Where the table names no fault the instruction takes none (R211). -/
theorem status_of_faultOf_none {i : Instr} {s t : State} (hs : s.Inv) (hrun : s.status = .running)
    (h : faultOf i s = none) (hx : exec i s = .next t) : t.status ≠ .faulted := by
  have kept (hk : t.status = s.status) : t.status ≠ .faulted := by simp [hk, hrun]
  cases i with
  | ld a b c =>
    obtain ⟨v, hv⟩ := Option.isSome_iff_exists.mp (accessFault_eq_none.mp h)
    rw [exec_ld_of_ok (pageRead_ok_iff.mpr hv)] at hx
    cases hx; exact kept rfl
  | st a b c =>
    obtain ⟨u, hu⟩ := pageWrite_exists (s.reg c) (accessFault_eq_none.mp h)
    rw [exec_st_of_ok hu] at hx
    cases hx; exact kept (by rw [pageWrite_ok_frame hu])
  | div a b c =>
    rw [exec_div_of_ne_zero a b (by simpa [faultOf] using h)] at hx
    cases hx; exact kept rfl
  | alloc b c =>
    have hok : hostCanAllocate s (s.reg c) = true ∧ (s.freeList ≠ [] ∨ s.nextId < 2 ^ 32) := by
      simp only [faultOf] at h
      split_ifs at h with hdenied hout
      refine ⟨by simpa using hdenied, (not_and_or.mp hout).imp id fun hn => ?_⟩
      exact Nat.lt_of_le_of_ne hs.bound hn
    obtain ⟨id, u, hu⟩ := exists_allocate hok.1 hok.2
    rw [exec_alloc_of_ok b hu] at hx
    cases hx; exact kept (by rw [allocate_ok_frame hu]; rfl)
  | free c =>
    obtain ⟨h0, hp⟩ : s.reg c ≠ 0#32 ∧ s.pageSize (s.reg c) ≠ none := by simpa [faultOf] using h
    rw [exec_free_of_present h0 hp] at hx
    cases hx; exact kept rfl
  | out c =>
    rw [exec_out_of_byte (by simpa [faultOf] using h)] at hx
    cases hx; exact kept rfl
  | loadprog b c =>
    obtain ⟨hn, -⟩ | ⟨-, rfl⟩ | ⟨p, -, -, rfl⟩ := exec_loadprog_cases hx
    · have h0 : s.reg b = 0#32 := by simpa [faultOf, hn] using h
      rw [exec_loadprog_of_zero c h0] at hx
      cases hx; exact kept rfl
    · exact kept rfl
    · exact kept rfl
  | inp c =>
    cases he : s.inEOF with
    | true => rw [exec_inp_of_eof he] at hx; cases hx; exact kept rfl
    | false => rw [exec_inp_of_not_eof he] at hx; cases hx; simp
  | halt => cases hx; simp
  | cmov a b c =>
    by_cases h0 : s.reg c = 0#32
    · rw [exec_cmov_of_eq_zero a b h0] at hx; cases hx; exact kept rfl
    · rw [exec_cmov_of_ne_zero a b h0] at hx; cases hx; exact kept rfl
  | add | mul | nand | li | unk14 | unk15 => cases hx; exact kept rfl

theorem faultOf_ne_noFault (i : Instr) (s : State) : faultOf i s ≠ some .noFault := by
  cases i with
  | ld | st =>
    intro h
    obtain ⟨-, he⟩ | ⟨_, -, -, he⟩ := accessFault_eq_some h <;> cases he
  | alloc => simp only [faultOf]; split_ifs <;> simp
  | _ => simp [faultOf]

/-- The cause codes of the faults (R210, D8). -/
theorem Cause.code_bounds {c : Cause} (h : c ≠ .noFault) : 1 ≤ c.code ∧ c.code ≤ 5 := by
  cases c with
  | noFault => exact absurd rfl h
  | _ => simp [Cause.code]

/-- Settles O43: each row of the table is the equation of its instruction's fault, and where no row applies the
instruction's other equations leave the status, halt or wait. -/
theorem faultsAreThoseOfTheTable : Obligations.FaultsAreThoseOfTheTable := by
  intro i s hs
  refine ⟨fun c hc => ⟨faultsWith_of_raise (exec_of_faultOf hs hc), Cause.code_bounds ?_⟩, fun hrun hn => ?_⟩
  · exact fun h0 => faultOf_ne_noFault i s (h0 ▸ hc)
  · obtain ⟨t, ht⟩ := exec_next i s
    exact ⟨t, ht, status_of_faultOf_none hs hrun hn ht⟩

/-! The host's predicate. -/

/-- Either answer is given by some value of the field (D6; log entry 4). -/
theorem exists_hostGrants (can : Bool) (s : State) (size : Word) :
    ∃ g, hostCanAllocate { s with hostGrants := g } size = can := by
  cases can with
  | true => exact ⟨.always, rfl⟩
  | false => exact ⟨.within 0 0, by simp [hostCanAllocate]⟩

/-- For a given answer of the host the allocation neither reads the field nor changes it. -/
theorem allocateWith_hostGrants (can : Bool) (size : Word) (s : State) (g : HostGrants) :
    allocateWith can size { s with hostGrants := g } =
      (allocateWith can size s).map fun r => (r.1, { r.2 with hostGrants := g }) := by
  unfold allocateWith newId
  cases can with
  | false => rfl
  | true =>
    cases s.freeList with
    | cons => rfl
    | nil => by_cases hn : s.nextId < Config.idLimit <;> simp [hn] <;> rfl

theorem hostGrants_of_allocateWith {can : Bool} {size : Word} {s : State} {r : Word × State}
    (h : allocateWith can size s = .ok r) : { r.2 with hostGrants := s.hostGrants } = r.2 := by
  have hsame := allocateWith_hostGrants can size s s.hostGrants
  rw [h] at hsame
  exact congrArg Prod.snd (Except.ok.inj hsame).symm

theorem hostGrants_step {s t : State} (h : step s = .next t) : t.hostGrants = s.hostGrants := by
  obtain ⟨i, -, hx⟩ | ⟨-, ht⟩ := step_instr_or_idle h
  · exact (exec_frame hx).hostGrants
  · rw [ht]

/-- Settles O28: the field is set for the one answer, of which the allocation makes what the rule says, and the frame of a
step keeps it. -/
theorem hostGrantsCoverEveryAnswer : Obligations.HostGrantsCoverEveryAnswer := by
  refine ⟨fun can b c s => ?_, fun s t => hostGrants_step⟩
  obtain ⟨g, hg⟩ := exists_hostGrants (can s (s.reg c)) s (s.reg c)
  have ha : allocate (s.reg c) { s with hostGrants := g } =
      (allocateWith (can s (s.reg c)) (s.reg c) s).map fun r => (r.1, { r.2 with hostGrants := g }) := by
    rw [allocate, hg, allocateWith_hostGrants]
  cases hr : allocateWith (can s (s.reg c)) (s.reg c) s with
  | ok r =>
    rw [hr] at ha
    exact ⟨g, _, exec_alloc_of_ok b ha, congrArg (State.setReg · b r.1) (hostGrants_of_allocateWith hr)⟩
  | error e => rw [hr] at ha; exact ⟨g, _, exec_alloc_of_error b ha, rfl⟩

end Sys2Proof.Machine
end

section
/-! SUPPORT. Instructions one after another: a load or a fetch after a store (spec/20_memory.md section 4 with its decision
D3), and the pseudo-instructions' expansions (spec/30_encoding.md R90). -/

namespace Sys2Proof.Machine

/-! After a store. -/

theorem exec_ld_of_word {a b c : Reg} {s : State} {v : Word}
    (h : s.wordAt (loadAddr b c s).1 (loadAddr b c s).2 = some v) : ∃ t, exec (.ld a b c) s = .next t ∧ t.reg a = v :=
  ⟨_, exec_ld_of_ok (pageRead_ok_iff.mpr h), reg_setReg_self _ _ _⟩

/-- Settles O24: the memory after the store has the stored word at the stored address and every other word as before, and
a load reads the word that is there. -/
theorem loadAfterStoreReadsTheLastWord : Obligations.LoadAfterStoreReadsTheLastWord := by
  intro a b c d e f s hw
  obtain ⟨t, ht⟩ := pageWrite_exists (s.reg c) hw
  have hword := wordAt_pageWrite ht
  refine ⟨t, exec_st_of_ok ht, fun heq => exec_ld_of_word ?same, fun v hne hv => exec_ld_of_word ?other⟩
  case same => rw [hword, if_pos heq]
  case other => rw [hword, if_neg hne, hv]

/-- Settles O25: the store puts the word into page 0 and leaves the advanced pc and the status, so the next fetch reads
the memory the store left. -/
theorem theNextFetchSeesAStore : Obligations.TheNextFetchSeesAStore := by
  intro a b c s hi h0 hw
  obtain ⟨hs, ha, -⟩ := nextInstr_eq_some.mp hi
  obtain ⟨t, ht⟩ := pageWrite_exists (s := advance s) (s.reg c) hw
  have hstep : step s = .next t := by
    rw [step_of_nextInstr hi]
    exact exec_st_of_ok (s := advance s) (by rw [storeAddr, reg_advance, h0]; exact ht)
  have hword (k : Word) : t.wordAt 0#32 k = if (0#32, k) = (0#32, s.reg b) then some (s.reg c) else s.wordAt 0#32 k :=
    wordAt_pageWrite ht 0#32 k
  have hstored : t.wordAt 0#32 (s.reg b) = some (s.reg c) := by rw [hword, if_pos rfl]
  refine ⟨t, hstep, hstored, fun k hk => by rw [hword, if_neg (by simpa using hk)], fun hb => ?_⟩
  have hframe := pageWrite_ok_frame ht
  have hpc : t.pc = s.reg b := by rw [hframe, hb]; rfl
  exact step_of_word (by rw [hframe]; exact hs) (by rw [hframe]; exact ha) (hpc ▸ hstored)

/-! The pseudo-instructions. -/

theorem runList_cons {i : Instr} {rest : List Instr} {s t : State} (h : exec i (advance s) = .next t) :
    runList (i :: rest) s = runList rest t := by
  rw [runList, h]

theorem runList_singleton {i : Instr} {s t : State} (h : exec i (advance s) = .next t) : runList [i] s = some t :=
  runList_cons h

theorem setReg_reg_self (r : Reg) (s : State) : s.setReg r (s.reg r) = s := by
  have hset : s.regs.set r.val s.regs[r.val] = s.regs := Vector.set_getElem_self r.isLt
  simp [State.setReg, State.reg, hset]

/-- Opcode 0 of a register onto itself does nothing, whatever its condition (R90). -/
theorem exec_cmov_self (r c : Reg) (s : State) : exec (.cmov r r c) s = .next s := by
  by_cases h : s.reg c = 0#32
  · exact exec_cmov_of_eq_zero r r h
  · rw [exec_cmov_of_ne_zero r r h, setReg_reg_self]

theorem aluNand_self (x : Word) : aluNand x x = ~~~x := by rw [aluNand, BitVec.and_self]

theorem aluAdd_zero (x : Word) : aluAdd x 0#32 = x := by simp [aluAdd]

theorem map_decode_encode {l : List Instr} (h : ∀ i ∈ l, i.wf = true) : (l.map encode).map decode = l := by
  rw [List.map_map]
  exact (List.map_congr_left (g := id) fun i hi => decode_encode (h i hi)).trans (List.map_id l)

/-- A pseudo-instruction's words decode to its expansion, for the assembler writes well-formed instructions (R89). -/
theorem decode_assemble {l : AsmLine} (h : ∀ i, l = .instr i → i.wf = true) : l.assemble.map decode = l.expand := by
  cases l with
  | instr i => exact map_decode_encode (l := [i]) (by simpa using h i rfl)
  | word v => rfl
  | nop | not | and | mov | jmp => exact map_decode_encode (by simp [AsmLine.expand, Instr.wf])

/-- Settles O53: each expansion is run instruction by instruction. -/
theorem pseudoInstructionsDoAsDescribed : Obligations.PseudoInstructionsDoAsDescribed := by
  refine ⟨fun s => ?nop, fun a b s => ?not, fun a b c s => ?and, fun a b z s hz => ?mov, fun z c s hz => ?jmp,
    fun l => decode_assemble⟩
  case nop => exact runList_singleton (exec_cmov_self 0 0 (advance s))
  case not =>
    refine ⟨_, runList_singleton (exec_nand a b b (advance s)), ?_, fun r hr => reg_setReg_of_ne _ _ _ hr, rfl⟩
    rw [reg_setReg_self, aluNand_self, reg_advance]
  case and =>
    refine ⟨_, (runList_cons (exec_nand a b c (advance s))).trans (runList_singleton (exec_nand a a a _)), ?_,
      fun r hr => (reg_setReg_of_ne _ _ _ hr).trans (reg_setReg_of_ne _ _ _ hr), rfl⟩
    rw [reg_setReg_self, aluNand_self, reg_advance, reg_setReg_self, aluNand, BitVec.not_not]
    rfl
  case mov =>
    refine ⟨_, runList_singleton (exec_add a b z (advance s)), ?_, fun r hr => reg_setReg_of_ne _ _ _ hr, rfl⟩
    rw [reg_setReg_self, reg_advance, reg_advance, hz, aluAdd_zero]
  case jmp => exact runList_singleton (exec_loadprog_of_zero (s := advance s) c hz)

end Sys2Proof.Machine
end

section
/-! SUPPORT. What no program can observe (spec/10_state.md R32, R34; log entry 4): the state without the image version and
the fault record, the operations and the step on it, and the statement for any number of steps. -/

namespace Sys2Proof.Machine

/-! The visible part of a state. -/

/-- The state with the image version and the fault record as reset leaves them. -/
def visible (s : State) : State := { s with imageVer := State.reset.imageVer, fault := State.reset.fault }

theorem sameVisible_iff {s t : State} : SameVisible s t ↔ visible s = visible t := by
  constructor
  · intro h; rw [h]; rfl
  · intro h
    cases s; cases t
    simp only [visible, State.mk.injEq] at h
    obtain ⟨rfl, rfl, rfl, rfl, rfl, -, rfl, -, rfl, rfl, rfl, rfl, rfl⟩ := h
    rfl

/-- An outcome up to what no program can observe. -/
def visibleOutcome : Host.Outcome State Fault Refusal → Host.Outcome State Fault Refusal
  | .next s => .next (visible s)
  | .fault f => .fault f
  | .refused r => .refused r

@[simp] theorem reg_visible (s : State) (r : Reg) : (visible s).reg r = s.reg r := rfl

/-! The shared operations. -/

theorem getPage_visible (s : State) (id : Word) : getPage (visible s) id = getPage s id := rfl

theorem pageWrite_visible (s : State) (addr : Word × Word) (v : Word) :
    pageWrite (visible s) addr v = (pageWrite s addr v).map visible := by
  have hpage : addressedPage (visible s) addr.1 = addressedPage s addr.1 := rfl
  unfold pageWrite
  rw [hpage]
  cases addressedPage s addr.1 with
  | error => rfl
  | ok p => dsimp only; cases p.write addr.2 v <;> rfl

theorem newId_visible (s : State) : newId (visible s) = (newId s).map fun r => (r.1, visible r.2) := by
  have hfree : (visible s).freeList = s.freeList := rfl
  have hnext : (visible s).nextId = s.nextId := rfl
  unfold newId
  rw [hfree, hnext]
  cases s.freeList with
  | cons => rfl
  | nil => dsimp only; split <;> rfl

theorem allocate_visible (size : Word) (s : State) :
    allocate size (visible s) = (allocate size s).map fun r => (r.1, visible r.2) := by
  have hhost : hostCanAllocate (visible s) size = hostCanAllocate s size := rfl
  unfold allocate allocateWith
  rw [hhost, newId_visible]
  cases hostCanAllocate s size with
  | false => rfl
  | true => cases newId s <;> rfl

theorem release_visible (id : Word) (s : State) : release id (visible s) = (release id s).map visible := by
  unfold release
  rw [getPage_visible]
  split
  · rfl
  · cases getPage s id <;> rfl

/-- The replacement counts a new image version, which is not visible, before or after the jump. -/
theorem replaceImage_visible (id target : Word) (s : State) :
    (replaceImage id (visible s)).map (fun t => visible (t.setPc target)) =
      (replaceImage id s).map fun t => visible (t.setPc target) := by
  unfold replaceImage
  rw [getPage_visible]
  split
  · cases getPage s id <;> rfl
  · rfl

/-! The instructions. -/

/-- A check and what follows it, where the visible state makes the same of both. -/
theorem visible_orRaise {α : Type} {s : State} {r r' : Except Cause α} {k k' : α → State}
    (h : r'.map (fun v => visible (k' v)) = r.map fun v => visible (k v)) :
    visible (orRaise (visible s) r' k') = visible (orRaise s r k) := by
  cases r with
  | ok v =>
    cases r' with
    | ok v' => exact Except.ok.inj h
    | error => cases h
  | error c =>
    cases r' with
    | ok => cases h
    | error c' => cases h; rfl

/-- The visible part of an instruction's outcome is decided by the visible part of the state. -/
theorem exec_visible (i : Instr) (s : State) : visibleOutcome (exec i (visible s)) = visibleOutcome (exec i s) := by
  have congr {t u : State} (h : visible t = visible u) : visibleOutcome (.next t) = visibleOutcome (.next u) :=
    congrArg Host.Outcome.next h
  cases i with
  | cmov a b c =>
    by_cases h : s.reg c = 0#32
    · rw [exec_cmov_of_eq_zero a b h, exec_cmov_of_eq_zero (s := visible s) a b h]; rfl
    · rw [exec_cmov_of_ne_zero a b h, exec_cmov_of_ne_zero (s := visible s) a b h]; rfl
  | add | mul | nand | halt | li | unk14 | unk15 => rfl
  | ld a b c => exact congr (visible_orRaise rfl)
  | st a b c =>
    refine congr (visible_orRaise ?_)
    rw [pageWrite_visible, storeAddr, storeAddr, reg_visible, reg_visible, reg_visible]
    cases pageWrite s (s.reg a, s.reg b) (s.reg c) <;> rfl
  | div a b c => exact congr (visible_orRaise rfl)
  | alloc b c =>
    refine congr (visible_orRaise ?_)
    rw [allocate_visible, reg_visible]
    cases allocate (s.reg c) s <;> rfl
  | free c =>
    refine congr (visible_orRaise ?_)
    rw [release_visible, reg_visible]
    cases release (s.reg c) s <;> rfl
  | out c => exact congr (visible_orRaise rfl)
  | inp c =>
    cases h : s.inEOF with
    | true => rw [exec_inp_of_eof h, exec_inp_of_eof (s := visible s) h]; rfl
    | false => rw [exec_inp_of_not_eof h, exec_inp_of_not_eof (s := visible s) h]; rfl
  | loadprog b c => exact congr (visible_orRaise (replaceImage_visible (s.reg b) (s.reg c) s))

/-! The step. -/

theorem awaitInput_visible (c : Reg) (s : State) : visible (awaitInput c (visible s)) = visible (awaitInput c s) := by
  cases h : s.hostInput with
  | nil => rw [awaitInput_of_no_answer c h, awaitInput_of_no_answer (s := visible s) c h]; rfl
  | cons r rest =>
    cases r with
    | byte b => rw [awaitInput_of_byte c h, awaitInput_of_byte (s := visible s) c h]; rfl
    | eof => rw [awaitInput_of_eof c h, awaitInput_of_eof (s := visible s) c h]; rfl

theorem step_visible (s : State) : visibleOutcome (step (visible s)) = visibleOutcome (step s) := by
  have abort (ha : s.abortReq = true) (ho : s.status.over = false) :
      visibleOutcome (step (visible s)) = visibleOutcome (step s) := by
    rw [step_of_abortReq ha ho, step_of_abortReq (s := visible s) ha ho]; rfl
  cases hs : s.status with
  | running =>
    cases ha : s.abortReq with
    | true => exact abort ha (by rw [hs]; rfl)
    | false =>
      cases hw : s.wordAt 0#32 s.pc with
      | none => rw [step_of_no_word hs ha hw, step_of_no_word (s := visible s) hs ha hw]; rfl
      | some w =>
        rw [step_of_word hs ha hw, step_of_word (s := visible s) hs ha hw]
        exact exec_visible (decode w) (advance s)
  | waitInput c =>
    cases ha : s.abortReq with
    | true => exact abort ha (by rw [hs]; rfl)
    | false =>
      rw [step_of_waitInput hs ha, step_of_waitInput (s := visible s) hs ha]
      exact congrArg Host.Outcome.next (awaitInput_visible c s)
  | halted => rw [step_of_halted hs, step_of_halted (s := visible s) hs]
  | faulted => rw [step_of_faulted hs, step_of_faulted (s := visible s) hs]
  | aborted => rw [step_of_aborted hs, step_of_aborted (s := visible s) hs]

theorem step_sameVisible {s t : State} (h : visible s = visible t) :
    visibleOutcome (step s) = visibleOutcome (step t) := by
  rw [← step_visible, h, step_visible]

/-! Runs. -/

theorem eq_next_of_visibleOutcome {s : State} {o : Host.Outcome State Fault Refusal}
    (h : visibleOutcome (.next s) = visibleOutcome o) : ∃ t, o = .next t ∧ visible s = visible t := by
  cases o with
  | next t => exact ⟨t, rfl, Host.Outcome.next.inj h⟩
  | fault | refused => cases h

theorem eq_fault_of_visibleOutcome {f : Fault} {o : Host.Outcome State Fault Refusal}
    (h : visibleOutcome (.fault f) = visibleOutcome o) : o = .fault f := by
  cases o with
  | fault => cases h; rfl
  | next | refused => cases h

/-- Runs of any length from states with the same visible part have outcomes with the same visible part. -/
theorem runSteps_sameVisible (k : Nat) {s t : State} (h : visible s = visible t) :
    visibleOutcome (runSteps k s) = visibleOutcome (runSteps k t) := by
  induction k generalizing s t with
  | zero => exact congrArg Host.Outcome.next h
  | succ k ih =>
    have hstep := step_sameVisible h
    simp only [runSteps]
    cases hs : step s with
    | next s' =>
      rw [hs] at hstep
      obtain ⟨t', ht, h'⟩ := eq_next_of_visibleOutcome hstep
      rw [ht]; exact ih h'
    | fault f =>
      rw [hs] at hstep
      rw [eq_fault_of_visibleOutcome hstep]
    | refused r =>
      obtain ⟨-, -, -, hnot, -⟩ := stepStopsExactlyWhenTheRunIsOver s
      exact absurd hs (hnot r)

/-- Settles O52: a run's outcome is decided, up to the two fields, by the visible part of the state it starts from. -/
theorem imageVersionAndFaultRecordAreInvisible : Obligations.ImageVersionAndFaultRecordAreInvisible := by
  intro k s t h
  have hrun := runSteps_sameVisible k (sameVisible_iff.mp h)
  refine ⟨fun s' hs => ?_, fun f hs => ?_⟩
  · obtain ⟨t', ht, h'⟩ := eq_next_of_visibleOutcome (hs ▸ hrun)
    exact ⟨t', ht, sameVisible_iff.mpr h'⟩
  · exact eq_fault_of_visibleOutcome (hs ▸ hrun)

end Sys2Proof.Machine
end
